-- ==== Sys2Proof/Word.lean ====
section
/-!
DEFINITION. The word of the machine: a byte (00_scope.md R6, `WORD` and `CELL`: 8 bits), every value unsigned (R8).
-/

namespace Sys2Proof

/-- A byte: the content of a register, of a memory cell, of an instruction byte (00_scope.md R6). -/
abbrev Byte := BitVec 8

/-- `n mod 256` as a byte: the result of modular arithmetic "over an 8-bit word" (42_alu.md R132). -/
def narrow (n : Nat) : Byte := BitVec.ofNat 8 n

end Sys2Proof
end

