-- ==== Sys2Proof/Config.lean ====
section
/-!
DEFINITION. The shape of this implementation (00_scope.md R6): what no instruction can change and what fixes the
form of State. The parameters that carry a VALUE a later test could show wrong (memory size, reset values) stand in
Machine/Params.lean and the opcode bytes in Decode.lean. No value of this machine is left free: the spec's one open
parameter is `REG_INIT` (40_engine.md R109), and log entry 1 gives it concrete values.
-/

namespace Sys2Proof

/-- `NREG`: the number of general registers, indices 0..7 (00_scope.md R6, 10_state.md R20). -/
abbrev Config.nReg : Nat := 8

/-- `SP_INDEX`: the register used as the stack pointer (00_scope.md R6, 10_state.md R25). -/
abbrev Config.spIndex : Nat := 7

/-- `LOAD_BASE`: where the loader puts the first image byte (00_scope.md R6, 70_reset_and_hazards.md R233). -/
abbrev Config.loadBase : Nat := 0

end Sys2Proof
end

