-- ==== Sys2Proof/Machine/Params.lean ====
section
/-!
DEFINITION. The parameters of 00_scope.md R6 that carry a value: the memory size and the reset values. They stand here,
in one place each, because the spec itself calls them unaudited or decided (92_eei_decisions.md D2, D3, D4, D22).
-/

namespace Sys2Proof.Machine

/-- `MEM_SIZE`: 255 cells, addresses 0..254 (10_state.md R37). UNVERIFIED, unsafe (log entry 4): the spec calls the
literal unaudited (D22, conflict C6) and follows it. -/
abbrev memSize : Nat := 255

/-- `REG_INIT`: the value of R0..R6 at construction. DESIGN CHOICE, unsafe (log entry 1): the spec leaves it open
(10_state.md R24, D2). -/
def regInit : Byte := 0x00#8

/-- `SP_INIT`: R7 at construction (10_state.md R25). -/
def spInit : Byte := 0xF4#8

/-- `PC_INIT`: the entry point (70_reset_and_hazards.md R231). DEDUCED, unsafe (log entry 5): decision D3. -/
def pcInit : Nat := 0

/-- `FL_INIT`: the flags at construction (10_state.md R34). DEDUCED, unsafe (log entry 6): decision D4. -/
def flInit : Byte := 0x00#8

/-- The general registers at construction (10_state.md R42). -/
def regsInit : Vector Byte 8 :=
  #v[regInit, regInit, regInit, regInit, regInit, regInit, regInit, spInit]

end Sys2Proof.Machine
end

