-- ==== Sys2Proof/Machine/State.lean ====
section
/-!
DEFINITION. The state of the machine (10_state.md: "The complete state of the machine is the tuple
(R[0..7], PC, FL, STATUS, MEM, OUT)"), as plain data, and the state after reset (R42).
-/

namespace Sys2Proof.Machine

/-- Memory as a canonical list of (address, byte): addresses strictly rising, all below `memSize`, no byte equal to
what an unlisted address reads as (`Memory.wf` in Machine/Ops.lean; log entry 17). -/
abbrev Memory := List Host.Cell

/-- The operation kinds the ALU may be asked for (42_alu.md R130). -/
inductive AluKind where
  | add
  | mul
  | cmp
  /-- Any kind outside ADD, MUL and CMP (42_alu.md R131); the number only tells such kinds apart. DESIGN CHOICE, safe
  (log entry 15): no instruction uses one. -/
  | other (tag : Nat)
deriving DecidableEq, Repr

/-- The fault kinds of 60_exceptions.md R206, each with its info. Raising one is taking a fault, a NEXT state with
STATUS = FAULTED (`State.takeFault`; log entry 2): safe, the machine then takes no further step. -/
inductive FaultKind where
  /-- Raised by the decode of a step (60_exceptions.md R201); the info is the opcode byte. Safe. -/
  | unknownOpcode (op : Byte)
  /-- Raised by the ALU for a kind outside ADD, MUL and CMP (60_exceptions.md R202); no instruction reaches it. Safe. -/
  | unsupportedAluOp (kind : AluKind)
  /-- Raised by memRead and memWrite, so by fetch, PUSH, CALL, POP, RET and the loader (60_exceptions.md R204); the
  info is the address. Safe. -/
  | memOob (addr : Nat)
  /-- Raised by readReg and writeReg with an index 8 or above (60_exceptions.md R203); the info is the index. Safe. -/
  | regOob (index : Nat)
  /-- The spec's model-only kind (60_exceptions.md R205), kept so that the table of R206 stands whole. Raised by
  nothing in this model: "A model that takes REG_INIT as concrete values never raises it", and this one does so
  (log entry 1). That choice is the unsafe one; the constructor itself is safe. -/
  | unwrittenReg (index : Nat)
deriving DecidableEq, Repr

/-- What a fault records: its kind with info, and the address of the faulting instruction (60_exceptions.md R207). -/
structure FaultRecord where
  kind : FaultKind
  pc : Nat
deriving DecidableEq, Repr

/-- `STATUS` (10_state.md R35). -/
inductive Status where
  | running
  | halted
  | faulted (r : FaultRecord)
deriving DecidableEq, Repr

/-- The machine's state (10_state.md). -/
structure State where
  /-- `R[0..7]`, `NREG` = 8 of them; index 7 is SP (10_state.md R20, R25). -/
  regs : Vector Byte 8
  /-- `PC`, a natural number (10_state.md R28). -/
  pc : Nat
  /-- `FL`, the flags byte; bit 0 is E (10_state.md R31). -/
  fl : Byte
  /-- `STATUS` (10_state.md R35). -/
  status : Status
  /-- `MEM` (10_state.md R37). -/
  mem : Memory
  /-- `OUT`, the bytes emitted, oldest first (10_state.md R38). -/
  out : List Byte
deriving DecidableEq, Repr

/-- Why a step has no next state. The spec's faults are no members: they are taken, as next states (log entry 2).
A machine that is not RUNNING takes no step (10_state.md R36), and the step of such a machine answers one of these. -/
inductive Fault where
  /-- Answered by `step` on a HALTED machine: "After HLT no further step exists" (44_control.md R191). Safe. -/
  | halted
  /-- Answered by `step` on a FAULTED machine, with what the fault recorded: "The machine takes no further step"
  (60_exceptions.md R208). Safe. -/
  | faulted (r : FaultRecord)
deriving DecidableEq, Repr

/-- Why an instruction has no meaning in the model. -/
inductive Refusal where
  /-- Answered by an arm of `exec` whose instruction has no meaning yet; no arm does so here. Safe. -/
  | notModelled (mnemonic : String)
deriving DecidableEq, Repr

/-- The state after construction, before any image is loaded (10_state.md R42, 70_reset_and_hazards.md R230, R231):
registers and PC and FL at their parameters, RUNNING, every cell 0x00 (nothing listed), OUT empty. -/
def State.reset : State where
  regs := regsInit
  pc := pcInit
  fl := flInit
  status := .running
  mem := []
  out := []

end Sys2Proof.Machine
end

