-- ==== Sys2Proof/Machine/Flags.lean ====
section
/-!
DEFINITION. The flags (10_state.md R31 to R34): one flag, E, bit 0 of FL. Arithmetic sets none (R32).
-/

namespace Sys2Proof.Machine

/-- `FL.E`, bit 0 of the flags byte (10_state.md R31). -/
def flagE (fl : Byte) : Bool := fl.getLsbD 0

/-- The mask of E in the flags byte (00_scope.md R6, `FLAG_E`). -/
def maskE : Byte := 0x01#8

/-- FL after a comparison of `x` and `y` (42_alu.md R136, R137): E is set when they are equal, FL is unchanged when
they differ. It is never cleared. -/
def cmpFlags (fl x y : Byte) : Byte := if x = y then fl ||| maskE else fl

end Sys2Proof.Machine
end

