-- ==== Sys2Proof/Machine/Ops.lean ====
section
/-!
DEFINITION. The named operations over memory and registers: the primitives of 00_scope.md R9, the two memory accessors
("the single seam", 20_memory.md R53), taking a fault and committing a step (40_engine.md R105, 60_exceptions.md R208).

A part of a step that may raise answers `Except FaultKind _`: `.error k` is `raise k`, evaluated where it is written
(00_scope.md R10).
-/

namespace Sys2Proof.Machine

/-! Memory as data. -/

/-- What an address that nothing has written reads as: memory is "zero-initialized" (10_state.md R37). -/
def unlistedByte : Byte := 0x00#8

/-- The byte at an address, with no bounds check. -/
def Memory.get : Memory → Nat → Byte
  | [], _ => unlistedByte
  | c :: m, a => if a = c.1 then c.2 else Memory.get m a

/-- A cell in front of a memory whose addresses lie above it; a byte equal to `unlistedByte` is not listed. -/
def Memory.consCell (a : Nat) (v : Byte) (m : Memory) : Memory :=
  if v = unlistedByte then m else (a, v) :: m

/-- Writing the byte at an address, with no bounds check; the canonical form is kept. -/
def Memory.set : Memory → Nat → Byte → Memory
  | [], a, v => Memory.consCell a v []
  | c :: m, a, v =>
    if a < c.1 then Memory.consCell a v (c :: m)
    else if a = c.1 then Memory.consCell a v m
    else c :: Memory.set m a v

/-- The canonical form: addresses strictly rising, each a cell of memory (10_state.md R37), no byte listed that an
unlisted address reads as. -/
abbrev Memory.wf (m : Memory) : Prop :=
  m.Pairwise (fun c d => c.1 < d.1) ∧ ∀ c ∈ m, c.1 < memSize ∧ c.2 ≠ unlistedByte

/-! Updates of one field. -/

/-- `R[i]` replaced where it exists; the check of the index is `writeReg`'s. -/
def State.setReg (s : State) (i : Nat) (v : Byte) : State := { s with regs := s.regs.setIfInBounds i v }

/-- `PC <- t` (00_scope.md R9): any natural number is accepted, the next fetch checks it (10_state.md R30). -/
def State.setPc (s : State) (t : Nat) : State := { s with pc := t }

/-- The flags byte replaced. -/
def State.setFl (s : State) (v : Byte) : State := { s with fl := v }

/-- STATUS replaced. -/
def State.setStatus (s : State) (st : Status) : State := { s with status := st }

/-- The byte at a memory address replaced; the check of the address is `memWrite`'s. -/
def State.setMem (s : State) (a : Nat) (v : Byte) : State := { s with mem := s.mem.set a v }

/-- `Emit(v)`: the byte is appended to OUT; the sink never refuses and never stalls (41_data_output.md R122). -/
def State.emit (s : State) (v : Byte) : State := { s with out := s.out ++ [v] }

/-- A handler advances PC by its instruction's length (10_state.md R29). -/
def State.advance (s : State) (n : Nat) : State := s.setPc (s.pc + n)

/-! Registers. -/

/-- `SP`, an alias of `R[7]` (10_state.md R25). -/
def State.sp (s : State) : Byte := s.regs[Config.spIndex]

/-- Read `R[i]`; REG_OOB(i) for i >= 8 (00_scope.md R9, 10_state.md R22). Every register holds a value, so
UNWRITTEN_REG is never raised (60_exceptions.md R205; log entry 1). -/
def readReg (s : State) (i : Nat) : Except FaultKind Byte :=
  match s.regs[i]? with
  | some v => .ok v
  | none => .error (.regOob i)

/-- Write `R[i]`; REG_OOB(i) for i >= 8 (00_scope.md R9, 10_state.md R22). -/
def writeReg (s : State) (i : Nat) (v : Byte) : Except FaultKind State :=
  if i < Config.nReg then .ok (s.setReg i v) else .error (.regOob i)

/-! Memory accesses. -/

/-- `MemRead(a, 1)` (20_memory.md R51); the address is never reduced (R54). -/
def memRead (s : State) (a : Nat) : Except FaultKind Byte :=
  if a < memSize then .ok (s.mem.get a) else .error (.memOob a)

/-- `MemWrite(a, 1, v)` (20_memory.md R52); the address is never reduced (R54). -/
def memWrite (s : State) (a : Nat) (v : Byte) : Except FaultKind State :=
  if a < memSize then .ok (s.setMem a v) else .error (.memOob a)

/-! The stack (43_stack.md). -/

/-- `SP <- (SP - 1) mod 256` (43_stack.md R150). DEDUCED, unsafe (log entry 7): decision D5. -/
def State.decSp (s : State) : State := s.setReg Config.spIndex (s.sp - 1#8)

/-- `SP <- (SP + 1) mod 256` (43_stack.md R151). DEDUCED, unsafe (log entry 7): decision D5. -/
def State.incSp (s : State) : State := s.setReg Config.spIndex (s.sp + 1#8)

/-- Where the next push stores: SP after the decrement (20_memory.md R53). -/
def pushAddr (s : State) : Nat := s.decSp.sp.toNat

/-- `MemWrite(SP, 1, v)`: store at the top of the stack. -/
def storeTop (s : State) (v : Byte) : Except FaultKind State := memWrite s s.sp.toNat v

/-- `MemRead(SP, 1)`: load the top of the stack. -/
def loadTop (s : State) : Except FaultKind Byte := memRead s s.sp.toNat

/-- `Push(v)` (43_stack.md R150). -/
def push (s : State) (v : Byte) : Except FaultKind State := storeTop s.decSp v

/-- `Pop()` (43_stack.md R151): the byte, and the state with SP incremented. -/
def pop (s : State) : Except FaultKind (Byte × State) := do
  let v ← loadTop s
  return (v, s.incSp)

/-! Faults and the commit of a step. -/

/-- Fault entry (60_exceptions.md R208, R207; 40_engine.md R105): STATUS <- FAULTED(kind, info) with the address of the
faulting instruction, and nothing else of the step is committed. There is no vector, no saved register and no handler
(R200), and no return but reset (R209), which is `State.reset`. Unsafe (log entry 9): that the rest keeps its pre-step value is
decision D7. -/
def State.takeFault (s : State) (k : FaultKind) : State := s.setStatus (.faulted { kind := k, pc := s.pc })

/-- `raise k` as the outcome of a step that began at `s`: the fault is TAKEN, a next state (log entry 2). -/
def raiseFault (s : State) (k : FaultKind) : Host.Outcome State Fault Refusal := .next (s.takeFault k)

/-- The end of a step that began at `s` (40_engine.md R105, R107): all its writes, or the fault it raised and nothing
else. -/
def commit (s : State) : Except FaultKind State → Host.Outcome State Fault Refusal
  | .ok t => .next t
  | .error k => raiseFault s k

end Sys2Proof.Machine
end

