-- ==== Sys2Proof/Machine/Operands.lean ====
section
/-!
DEFINITION. The operand forms (30_encoding.md R71, R72): a register named by an operand byte, read or written, and the
8-bit immediate. No other form exists: no memory operand, no address immediate, no PC-relative offset.
-/

namespace Sys2Proof.Machine

/-- The index an operand byte names: the whole byte, unsigned, 0..255 (30_encoding.md R72). -/
def regIndex (r : Byte) : Nat := r.toNat

/-- The value of a register operand; REG_OOB where the byte is 8 or above, at this access and not before
(10_state.md R22). DEDUCED, unsafe (log entry 8): decision D6. -/
def readOperand (s : State) (r : Byte) : Except FaultKind Byte := readReg s (regIndex r)

/-- Writing a register operand; REG_OOB where the byte is 8 or above (10_state.md R22). -/
def writeOperand (s : State) (r : Byte) (v : Byte) : Except FaultKind State := writeReg s (regIndex r) v

/-- The immediate of LDI: the whole byte, used as it is (30_encoding.md R72). -/
def imm8 (b : Byte) : Byte := b

/-- A jump or call target: the value of a register, an unsigned byte, as the program counter's natural number
(44_control.md R170). -/
def targetOf (v : Byte) : Nat := v.toNat

end Sys2Proof.Machine
end

