-- ==== Sys2Proof/Machine/Alu.lean ====
section
/-!
DEFINITION. The ALU and its instructions (42_alu.md): ADD, MUL, CMP.
-/

namespace Sys2Proof.Machine

/-- `(x + y) mod 256` (42_alu.md R133). -/
def aluSum (x y : Byte) : Byte := narrow (x.toNat + y.toNat)

/-- `(x * y) mod 256`, the low 8 bits of the product (42_alu.md R134). -/
def aluProduct (x y : Byte) : Byte := narrow (x.toNat * y.toNat)

/-- The ALU (42_alu.md R130): from the kind, the two register operands, the register file and FL, the new `R[a]`
(ADD, MUL) or the new FL (CMP). It reads no memory and does not touch PC. A kind outside the three raises
UNSUPPORTED_ALU_OP (R131). `R[a]` is read, and checked, before `R[b]` (R133, R134, R136). -/
def alu (kind : AluKind) (a b : Byte) (s : State) : Except FaultKind State :=
  match kind with
  | .add => do
    let x ← readOperand s a
    let y ← readOperand s b
    writeOperand s a (aluSum x y)
  | .mul => do
    let x ← readOperand s a
    let y ← readOperand s b
    writeOperand s a (aluProduct x y)
  | .cmp => do
    let x ← readOperand s a
    let y ← readOperand s b
    return s.setFl (cmpFlags s.fl x y)
  | .other tag => throw (.unsupportedAluOp (.other tag))

/-- An ALU handler: invoke the ALU, then advance PC by 3 (40_engine.md R103, R108). -/
def aluHandler (kind : AluKind) (a b : Byte) (s : State) : Except FaultKind State := do
  let t ← alu kind a b s
  return t.advance 3

/-- ADD (42_alu.md R133). -/
def execAdd (a b : Byte) (s : State) : Host.Outcome State Fault Refusal := commit s (aluHandler .add a b s)

/-- MUL (42_alu.md R134). -/
def execMul (a b : Byte) (s : State) : Host.Outcome State Fault Refusal := commit s (aluHandler .mul a b s)

/-- CMP (42_alu.md R136, R137). -/
def execCmp (a b : Byte) (s : State) : Host.Outcome State Fault Refusal := commit s (aluHandler .cmp a b s)

end Sys2Proof.Machine
end

