-- ==== Sys2Proof/Machine/Control.lean ====
section
/-!
DEFINITION. Control transfer and halt (44_control.md): JMP, JEQ, JNE, CALL, RET, HLT. A target is not checked when it
is written; the next fetch checks it (R170).
-/

namespace Sys2Proof.Machine

/-- `PC <- R[a]` (44_control.md R170, R171). -/
def jumpTo (a : Byte) (s : State) : Except FaultKind State := do
  let v ← readOperand s a
  return s.setPc (targetOf v)

/-- JMP (44_control.md R171). -/
def execJmp (a : Byte) (s : State) : Host.Outcome State Fault Refusal := commit s (jumpTo a s)

/-- JEQ (44_control.md R172): taken when E is set; not taken, `R[a]` is not read. -/
def execJeq (a : Byte) (s : State) : Host.Outcome State Fault Refusal :=
  commit s (if flagE s.fl then jumpTo a s else .ok (s.advance 2))

/-- JNE (44_control.md R173): taken when E is clear; not taken, `R[a]` is not read. -/
def execJne (a : Byte) (s : State) : Host.Outcome State Fault Refusal :=
  commit s (if flagE s.fl then .ok (s.advance 2) else jumpTo a s)

/-- The return address CALL pushes, `PC + 2`, one byte (44_control.md R180). Every CALL that was fetched stands at
PC <= 252, so the address fits; off those states, which no step executes, it is narrowed (log entry 14, safe). -/
def returnAddr (s : State) : Byte := narrow (s.pc + 2)

/-- CALL (44_control.md R180): the return address is pushed, THEN `R[a]` is read (MEM_OOB before REG_OOB, and CALL R7
jumps to the decremented SP). -/
def execCall (a : Byte) (s : State) : Host.Outcome State Fault Refusal :=
  commit s do
    let t ← push s (returnAddr s)
    jumpTo a t

/-- RET (44_control.md R182): `PC <- Pop()`. -/
def execRet (s : State) : Host.Outcome State Fault Refusal :=
  commit s do
    let (v, t) ← pop s
    return t.setPc (targetOf v)

/-- HLT (44_control.md R190): `STATUS <- HALTED`; PC keeps the address of the HLT (DEDUCED, safe, log entry 18). -/
def execHlt (s : State) : Host.Outcome State Fault Refusal := commit s (.ok (s.setStatus .halted))

end Sys2Proof.Machine
end

