-- ==== Sys2Proof/Machine/Data.lean ====
section
/-!
DEFINITION. Data movement and output (41_data_output.md): LDI, PRN.
-/

namespace Sys2Proof.Machine

/-- LDI (41_data_output.md R120): `R[a] <- b; PC <- PC + 3`. -/
def execLdi (a b : Byte) (s : State) : Host.Outcome State Fault Refusal :=
  commit s do
    let t ← writeOperand s a (imm8 b)
    return t.advance 3

/-- PRN (41_data_output.md R121): `v <- R[a]; Emit(v); PC <- PC + 2`. -/
def execPrn (a : Byte) (s : State) : Host.Outcome State Fault Refusal :=
  commit s do
    let v ← readOperand s a
    return (s.emit v).advance 2

end Sys2Proof.Machine
end

