-- ==== Sys2Proof/Machine/Stack.lean ====
section
/-!
DEFINITION. The stack instructions (43_stack.md): PUSH, POP. Their statements run in the order the spec writes them,
which is what R7 as an operand sees (DEDUCED, unsafe, log entry 12: 93_implementation_defined.md U14).
-/

namespace Sys2Proof.Machine

/-- PUSH (43_stack.md R153): SP is decremented, THEN `R[a]` is read (REG_OOB before MEM_OOB, and PUSH R7 pushes the
decremented SP), then the byte is stored at SP. -/
def execPush (a : Byte) (s : State) : Host.Outcome State Fault Refusal :=
  commit s do
    let t := s.decSp
    let v ← readOperand t a
    let t ← storeTop t v
    return t.advance 2

/-- POP (43_stack.md R154): the byte at SP is read, `R[a]` is written (MEM_OOB before REG_OOB), THEN SP as it stands
after that write is incremented (POP R7 leaves the byte plus 1). -/
def execPop (a : Byte) (s : State) : Host.Outcome State Fault Refusal :=
  commit s do
    let v ← loadTop s
    let t ← writeOperand s a v
    return t.incSp.advance 2

end Sys2Proof.Machine
end

