-- ==== Sys2Proof/Syntax.lean ====
section
/-!
DEFINITION. The instructions: one constructor per row of spec/opcode_table.json, in the table's order. An operand is
the whole operand byte (30_encoding.md R72): a register operand may hold any of the 256 values (R77), of which 0..7
name registers.
-/

namespace Sys2Proof

/-- The 13 instructions of 30_encoding.md R73. `a` is the first operand byte and `b` the second (R70). -/
inductive Instr where
  /-- HLT: halt (44_control.md R190). -/
  | hlt
  /-- LDI: load the immediate `b` into register `a` (41_data_output.md R120). -/
  | ldi (a b : Byte)
  /-- PRN: emit register `a` (41_data_output.md R121). -/
  | prn (a : Byte)
  /-- ADD: add register `b` to register `a` (42_alu.md R133). -/
  | add (a b : Byte)
  /-- MUL: multiply register `a` by register `b` (42_alu.md R134). -/
  | mul (a b : Byte)
  /-- CMP: compare registers `a` and `b` (42_alu.md R136). -/
  | cmp (a b : Byte)
  /-- PUSH: push register `a` (43_stack.md R153). -/
  | push (a : Byte)
  /-- POP: pop into register `a` (43_stack.md R154). -/
  | pop (a : Byte)
  /-- CALL: call the subroutine whose address register `a` holds (44_control.md R180). -/
  | call (a : Byte)
  /-- RET: return from a subroutine (44_control.md R182). -/
  | ret
  /-- JMP: jump to the address in register `a` (44_control.md R171). -/
  | jmp (a : Byte)
  /-- JEQ: jump to the address in register `a` if E is set (44_control.md R172). -/
  | jeq (a : Byte)
  /-- JNE: jump to the address in register `a` if E is clear (44_control.md R173). -/
  | jne (a : Byte)
deriving DecidableEq, Repr

end Sys2Proof
end

