-- ==== Sys2Proof/WellFormed.lean ====
section
/-!
DEFINITION. Which instructions are well formed: those whose register operands name registers. An operand byte "used as
a register index is valid when it is 0..7" (10_state.md R22, and the field tables of 30_encoding.md R71). The decoder
does NOT ask this (30_encoding.md R77: operand bytes are never illegal at decode): an ill-formed instruction decodes,
executes and raises REG_OOB where it uses the index. So no meaning and no step depends on this predicate; statements
about instructions that raise no REG_OOB do.
-/

namespace Sys2Proof

/-- The operand byte names one of R0..R7 (10_state.md R22). -/
def validReg (r : Byte) : Bool := decide (r.toNat < Config.nReg)

/-- The operand bytes an instruction uses as register indices (30_encoding.md R71): not the immediate of LDI, and none
for HLT and RET (60_exceptions.md R203). -/
def Instr.registerOperands : Instr → List Byte
  | .hlt => []
  | .ldi a _ => [a]
  | .prn a => [a]
  | .add a b => [a, b]
  | .mul a b => [a, b]
  | .cmp a b => [a, b]
  | .push a => [a]
  | .pop a => [a]
  | .call a => [a]
  | .ret => []
  | .jmp a => [a]
  | .jeq a => [a]
  | .jne a => [a]

/-- Every register operand of the instruction is valid. The immediate of LDI may be any byte (30_encoding.md R72). -/
def Instr.wellFormed (i : Instr) : Bool := i.registerOperands.all validReg

end Sys2Proof
end

