-- ==== Sys2Proof/Decode.lean ====
section
/-!
DEFINITION. Instruction encoding (30_encoding.md): the opcode table (R73, the ONE place that holds the opcode bytes),
the formats (R71), the decoder by flat lookup on the whole opcode byte (R75, R76), and the encoder.
-/

namespace Sys2Proof

/-- The mnemonics of 30_encoding.md R73: what an opcode byte selects. -/
inductive Mnemonic where
  | hlt | ldi | prn | add | mul | cmp | push | pop | call | ret | jmp | jeq | jne
deriving DecidableEq, Repr

/-- The four formats of 30_encoding.md R71. -/
inductive Format where
  /-- one byte: the opcode -/
  | f0
  /-- two bytes: opcode, register `a` -/
  | f1r
  /-- three bytes: opcode, register `a`, register `b` -/
  | f2r
  /-- three bytes: opcode, register `a`, immediate `b` -/
  | f2i
deriving DecidableEq, Repr

/-- Why the decoder rejects bytes. -/
inductive Reject where
  /-- The opcode byte is not in the table (30_encoding.md R76). The step turns it into the fault UNKNOWN_OPCODE. -/
  | unknownOpcode (op : Byte)
  /-- Fewer than the three bytes of a fetch window (00_scope.md R6, FETCH_WINDOW) were given. Only `decodeBytes`
  answers it: the engine's fetch always has three bytes or has faulted before the decode (40_engine.md R101). -/
  | shortWindow
deriving DecidableEq, Repr

/-- `OPCODE`: the opcode byte of each mnemonic (30_encoding.md R73). PRESUMED, unsafe (log entry 3): the spec's values
are "from general knowledge, not in source" (decision D1), so they stand in this one table. -/
def Mnemonic.opcode : Mnemonic → Byte
  | .hlt => 0x01#8
  | .ldi => 0x82#8
  | .prn => 0x47#8
  | .add => 0xA0#8
  | .mul => 0xA2#8
  | .cmp => 0xA7#8
  | .push => 0x45#8
  | .pop => 0x46#8
  | .call => 0x50#8
  | .ret => 0x11#8
  | .jmp => 0x54#8
  | .jeq => 0x55#8
  | .jne => 0x56#8

/-- The rows of the table of 30_encoding.md R73, in its order. -/
def Mnemonic.all : List Mnemonic :=
  [.hlt, .ldi, .prn, .add, .mul, .cmp, .push, .pop, .call, .ret, .jmp, .jeq, .jne]

/-- The format of each mnemonic (30_encoding.md R71, R73). -/
def Mnemonic.format : Mnemonic → Format
  | .hlt | .ret => .f0
  | .prn | .push | .pop | .call | .jmp | .jeq | .jne => .f1r
  | .add | .mul | .cmp => .f2r
  | .ldi => .f2i

/-- The length in bytes of a format (30_encoding.md R71). -/
def Format.length : Format → Nat
  | .f0 => 1
  | .f1r => 2
  | .f2r => 3
  | .f2i => 3

/-- The instruction's length: "a property of the handler selected by the opcode" (30_encoding.md R75). -/
def Mnemonic.length (m : Mnemonic) : Nat := m.format.length

/-- The instruction of a mnemonic with the operand bytes of the fetch window; the bytes past the instruction's length
are ignored (30_encoding.md R70, R77). -/
def Mnemonic.instr (a b : Byte) : Mnemonic → Instr
  | .hlt => .hlt
  | .ldi => .ldi a b
  | .prn => .prn a
  | .add => .add a b
  | .mul => .mul a b
  | .cmp => .cmp a b
  | .push => .push a
  | .pop => .pop a
  | .call => .call a
  | .ret => .ret
  | .jmp => .jmp a
  | .jeq => .jeq a
  | .jne => .jne a

/-- The dispatch table's lookup, on the whole opcode byte (mask 0xFF): 30_encoding.md R73, R75. -/
def lookupOpcode (op : Byte) : Option Mnemonic := Mnemonic.all.find? fun m => m.opcode == op

/-- Decoding a fetch window: opcode, operand `a`, operand `b` (30_encoding.md R70, 40_engine.md R102). -/
def decode (op a b : Byte) : Except Reject Instr :=
  match lookupOpcode op with
  | some m => .ok (m.instr a b)
  | none => .error (.unknownOpcode op)

/-- The decoder on any list of bytes, which are those at the instruction's address, in order: it looks at the first
three, the fetch window. -/
def decodeBytes : List Byte → Except Reject Instr
  | op :: a :: b :: _ => decode op a b
  | _ => .error .shortWindow

/-- The mnemonic of an instruction. -/
def Instr.mnemonic : Instr → Mnemonic
  | .hlt => .hlt
  | .ldi _ _ => .ldi
  | .prn _ => .prn
  | .add _ _ => .add
  | .mul _ _ => .mul
  | .cmp _ _ => .cmp
  | .push _ => .push
  | .pop _ => .pop
  | .call _ => .call
  | .ret => .ret
  | .jmp _ => .jmp
  | .jeq _ => .jeq
  | .jne _ => .jne

/-- The operand bytes of an instruction, in memory order (30_encoding.md R70, R71). -/
def Instr.operands : Instr → List Byte
  | .hlt => []
  | .ldi a b => [a, b]
  | .prn a => [a]
  | .add a b => [a, b]
  | .mul a b => [a, b]
  | .cmp a b => [a, b]
  | .push a => [a]
  | .pop a => [a]
  | .call a => [a]
  | .ret => []
  | .jmp a => [a]
  | .jeq a => [a]
  | .jne a => [a]

/-- The bytes of an instruction at increasing addresses: the opcode, then the operands (30_encoding.md R70, R73). -/
def encode (i : Instr) : List Byte := i.mnemonic.opcode :: i.operands

/-- Byte `k` of a number whose bit 0 is bit 0 of byte 0 (the numbering of spec/opcode_table.json). -/
def tableByte (w k : Nat) : Byte := narrow (w / 256 ^ k)

/-- The instruction the decoder reads from a row of spec/opcode_table.json: the low `nbits` bits of `w`, byte 0 first,
followed by zero bits up to the longest instruction (three bytes). -/
def decodeTableWord (nbits w : Nat) : Option Instr :=
  let v := w % 2 ^ nbits
  match decode (tableByte v 0) (tableByte v 1) (tableByte v 2) with
  | .ok i => some i
  | .error _ => none

end Sys2Proof
end

