-- ==== Sys2Proof/Machine/Engine.lean ====
section
/-!
DEFINITION. Fetch and decode (40_engine.md R101, R102), and which machines take no step (10_state.md R36).
-/

namespace Sys2Proof.Machine

/-- Fetch (40_engine.md R101): the opcode byte and the two bytes after it, read for EVERY instruction, in this order,
each bounds-checked. DEDUCED, safe (log entry 10): conflict C1, decision D23. -/
def fetch (s : State) : Except FaultKind (Byte × Byte × Byte) := do
  let op ← memRead s s.pc
  let a ← memRead s (s.pc + 1)
  let b ← memRead s (s.pc + 2)
  return (op, a, b)

/-- The fault of a rejected window: UNKNOWN_OPCODE with the opcode byte (40_engine.md R102). -/
def rejectFault (op : Byte) : Reject → FaultKind
  | .unknownOpcode o => .unknownOpcode o
  | .shortWindow => .unknownOpcode op

/-- Fetch, then decode (40_engine.md R107): the instruction the step executes, or the fault it raises. -/
def fetchDecode (s : State) : Except FaultKind Instr := do
  let (op, a, b) ← fetch s
  match decode op a b with
  | .ok i => return i
  | .error r => throw (rejectFault op r)

/-- A machine that is not RUNNING takes no step (10_state.md R36): why its step has no next state. -/
def noStep : Status → Option Fault
  | .running => none
  | .halted => some .halted
  | .faulted r => some (.faulted r)

/-- Bytes stored at consecutive addresses; an address past memory is left out. -/
def storeBytes (s : State) (a : Nat) : List Byte → State
  | [] => s
  | v :: vs => storeBytes (if a < memSize then s.setMem a v else s) (a + 1) vs

/-- The machine with a row of spec/opcode_table.json, three bytes, at PC, and RUNNING, which a fetch needs
(log entry 16). -/
def placeAtPc (s : State) (nbits w : Nat) : State :=
  let v := w % 2 ^ nbits
  storeBytes (s.setStatus .running) s.pc [tableByte v 0, tableByte v 1, tableByte v 2]

end Sys2Proof.Machine
end

