-- ==== Sys2Proof/Machine/Step.lean ====
section
/-!
DEFINITION. The step (40_engine.md R107). The engine adds nothing to PC before, during or after the handler (R104).
-/

namespace Sys2Proof.Machine

/-- One iteration of the loop (40_engine.md R107): a machine that is not RUNNING takes no step; else fetch and decode,
whose fault is taken; else the handler. -/
def step (s : State) : Host.Outcome State Fault Refusal :=
  match noStep s.status with
  | some f => .fault f
  | none =>
    match fetchDecode s with
    | .ok i => exec i s
    | .error k => raiseFault s k

/-- The machine with an instruction of spec/opcode_table.json placed where the next fetch reads (log entry 16). -/
def State.withFetchWord (s : State) (nbits w : Nat) : State := placeAtPc s nbits w

end Sys2Proof.Machine
end

