-- ==== Sys2Proof/Machine/Ports.lean ====
section
/-!
DEFINITION. The host's transactions with the core (40_engine.md R100): reset, load, trace, status. OUT is a field of
State. None of them happens during a step.
-/

namespace Sys2Proof.Machine

/-- `reset`: full re-construction; nothing survives (70_reset_and_hazards.md R230). -/
def resetMachine (_ : State) : State := State.reset

/-- `load(addr, byte)` (40_engine.md R100): one MemWrite; past memory it raises MEM_OOB, which leaves the machine
FAULTED (70_reset_and_hazards.md R234). DESIGN CHOICE, safe (log entry 24): a load executes no instruction, so the
spec names no faulting address, and the record holds the machine's PC. DESIGN CHOICE, unsafe (log entry 25): a load does
not look at STATUS, so after a failed load a further one still writes, or replaces the record. -/
def loadByte (s : State) (a : Nat) (v : Byte) : State :=
  match memWrite s a v with
  | .ok t => t
  | .error k => s.takeFault k

/-- The image's bytes written at consecutive addresses in order; the first fault ends the load
(70_reset_and_hazards.md R233, R234), and its record holds the machine's PC (DESIGN CHOICE, safe, log entry 24). -/
def loadImage (s : State) (a : Nat) : List Byte → State
  | [] => s
  | v :: vs =>
    match memWrite s a v with
    | .ok t => loadImage t (a + 1) vs
    | .error k => s.takeFault k

/-- The machine as it starts: reset, then the image loaded from address 0 (70_reset_and_hazards.md R233). -/
def boot (image : List Byte) : State := loadImage State.reset Config.loadBase image

/-- The number of a fault kind at the status interface (60_exceptions.md R206); a label (decision D8, log entry 21). -/
def FaultKind.code : FaultKind → Nat
  | .unknownOpcode _ => 1
  | .unsupportedAluOp _ => 2
  | .memOob _ => 3
  | .regOob _ => 4
  | .unwrittenReg _ => 5

/-- What the trace port shows between steps (40_engine.md R111). -/
structure Trace where
  pc : Nat
  /-- MEM[PC], MEM[PC + 1], MEM[PC + 2]; absent past memory. -/
  bytes : List (Option Byte)
  regs : Vector Byte 8
deriving DecidableEq, Repr

/-- A memory byte as the trace reports it: absent past memory; no architectural read (40_engine.md R111). -/
def traceByte (s : State) (a : Nat) : Option Byte := if a < memSize then some (s.mem.get a) else none

/-- `trace` (40_engine.md R111): it observes and changes nothing. DEDUCED, safe (log entry 19): decision D18. -/
def traceView (s : State) : Trace where
  pc := s.pc
  bytes := [traceByte s s.pc, traceByte s (s.pc + 1), traceByte s (s.pc + 2)]
  regs := s.regs

end Sys2Proof.Machine
end

