-- ==== Sys2Proof/Safety.lean ====
section
/-!
DEFINITION. What counts as a good state, a safe step and the end of a run, in the terms the statements use.
-/

namespace Sys2Proof.Machine

/-- STATUS is FAULTED: "not a successful end" (40_engine.md R110). -/
def State.isFaulted (s : State) : Bool :=
  match s.status with
  | .faulted _ => true
  | _ => false

/-- The invariant of the machine: memory is canonical with every listed address below 255; PC is in 0..255
(10_state.md R30); bits 7..1 of FL read 0 (10_state.md R34). -/
def State.Inv (s : State) : Prop := s.mem.wf ∧ s.pc ≤ 255 ∧ s.fl &&& 0xFE#8 = 0x00#8

/-- The outcome is that fault `k`, kind and info, is taken: a next state whose STATUS is FAULTED with it. It reads
nothing but STATUS of the faulted machine (40_engine.md R105: claims must not). -/
def TakesFault (o : Host.Outcome State Fault Refusal) (k : FaultKind) : Prop :=
  ∃ (t : State) (r : FaultRecord), o = .next t ∧ t.status = .faulted r ∧ r.kind = k

/-- Every register of `t` but the listed ones holds what it holds in `s`. -/
def RegsKept (s t : State) (except : List Nat) : Prop := ∀ (r : Nat) (_ : r < 8), r ∉ except → t.regs[r] = s.regs[r]

/-- Every byte of memory reads in `t` as it reads in `s`. -/
def MemKept (s t : State) : Prop := ∀ x, t.mem.get x = s.mem.get x

/-- The step raises no fault. -/
def SafeStep (s : State) : Prop := ∃ t, step s = .next t ∧ t.isFaulted = false

/-- The state after at most `n` steps, stopping where no step exists. -/
def runFor : Nat → State → State
  | 0, s => s
  | n + 1, s =>
    match step s with
    | .next t => runFor n t
    | .fault _ => s
    | .refused _ => s

/-- The run from `s` is over in `t`: STATUS = HALTED, "which only HLT produces" (40_engine.md R110). -/
def EndsIn (s t : State) : Prop := t.status = .halted ∧ ∃ n, runFor n s = t

end Sys2Proof.Machine
end

