-- ==== Sys2Proof/Certificates/Slice0/Obligations.lean ====
section
/-!
DEFINITION. The statements for the provers. Each docstring names the rule or the section of spec/ it formalises.

Two conventions of all of them. A fault is a next state (log entry 2), and "claims must not read the registers, memory
or PC of a faulted machine" (40_engine.md R105, 93_implementation_defined.md U6): a statement that an instruction
raises a fault reads STATUS only (TakesFault: the kind and its info; that the record holds the instruction's address is
said in EveryFaultHasItsCause), a frame speaks of the handler that completes (`t.isFaulted = false`),
and what a fault commits is said in FaultEntryCommitsNothing, as the spec's own choice. Every register
holds a value (log entry 1), so no statement has a case for UNWRITTEN_REG (60_exceptions.md R205).
-/

open Sys2Proof Sys2Proof.Machine

/-! Reset, load, decode. -/

/-- 10_state.md section 9 (R42) and 70_reset_and_hazards.md section 1: SP = 0xF4, PC = 0, FL = 0x00, RUNNING, every
cell 0x00, OUT empty; reset gives that state whatever the machine was. PC and FL at 0 are the spec's decisions D3 and
D4 (log entries 5, 6). R0..R6 are left out: their reset value is the model's choice (log entry 1). -/
def Obligations.ResetLeavesTheGivenValues : Prop :=
  State.reset.regs[7] = 0xF4#8 ∧ State.reset.sp = 0xF4#8 ∧ State.reset.pc = 0 ∧ State.reset.fl = 0x00#8 ∧
  State.reset.status = .running ∧ (∀ a, State.reset.mem.get a = 0x00#8) ∧ State.reset.out = [] ∧
  ∀ s, resetMachine s = State.reset

/-- The invariant of StepKeepsTheInvariant holds at reset (10_state.md sections 3, 4, 6, 9). Canonical memory is the model's
form (log entry 17); PC and FL at reset are the spec's decisions D3 and D4 (log entries 5, 6). -/
def Obligations.ResetSatisfiesTheInvariant : Prop := State.reset.Inv

/-- 70_reset_and_hazards.md R233: for an image of n bytes, loading writes `img[i]` at address i; cells n..254 keep
0x00; no register, PC, FL or STATUS changes. -/
def Obligations.BootLoadsTheImage : Prop :=
  ∀ img : List Byte, img.length ≤ 255 →
    (∀ k, (boot img).mem.get k = img.getD k 0x00#8) ∧
    boot img = { State.reset with mem := (boot img).mem }

/-- 70_reset_and_hazards.md R234 (decision D14): an image longer than 255 bytes fails at the write of address 255 and
the machine does not start (log entry 16). That the fault records an address, and that it is the PC of reset, 0, is the
model's choice for a load (log entry 24), on decisions D8 and D3 (log entries 21, 5). -/
def Obligations.BootOfALongImageFaults : Prop :=
  ∀ img : List Byte, 255 < img.length →
    (boot img).status = .faulted { kind := .memOob 255, pc := 0 } ∧ ∀ t, step (boot img) ≠ .next t

/-- 30_encoding.md section 2: a word of each format, written out from the table, decodes to the instruction it stands
for. The opcode values are from general knowledge (decision D1, log entry 3). -/
def Obligations.OpcodeWordsDecode : Prop :=
  decode 0x01#8 0x00#8 0x00#8 = .ok .hlt ∧ decode 0x82#8 0x00#8 0x08#8 = .ok (.ldi 0#8 8#8) ∧
  decode 0x47#8 0x07#8 0x00#8 = .ok (.prn 7#8) ∧ decode 0xA0#8 0x00#8 0x01#8 = .ok (.add 0#8 1#8) ∧
  decode 0xA7#8 0x00#8 0x02#8 = .ok (.cmp 0#8 2#8) ∧ decode 0x45#8 0x09#8 0x82#8 = .ok (.push 9#8) ∧
  decode 0x55#8 0x03#8 0xFF#8 = .ok (.jeq 3#8) ∧ decode 0x00#8 0x00#8 0x00#8 = .error (.unknownOpcode 0x00#8)

/-- 30_encoding.md sections 1 to 3: decoding an instruction's bytes, whatever bytes follow, gives it back, for EVERY
operand byte; and a fetch window decodes to an instruction exactly when that instruction's bytes begin the window, so no
two instructions share an encoding and the bytes past an instruction's length are ignored. -/
def Obligations.DecodeAndEncodeAgree : Prop :=
  (∀ (i : Instr) (x y : Byte) (rest : List Byte), decodeBytes (encode i ++ x :: y :: rest) = .ok i) ∧
  (∀ (op a b : Byte) (i : Instr), decode op a b = .ok i ↔ encode i <+: [op, a, b])

/-- 30_encoding.md section 3 (R76, decision D30; the opcode values are D1's, log entry 3): the decoder accepts exactly
the 13 listed opcode bytes, whatever the operand bytes are, and rejects every other byte by its value. -/
def Obligations.DecoderAcceptsExactlyTheTable : Prop :=
  ∀ op a b : Byte,
    ((∃ i, decode op a b = .ok i) ↔ op ∈ [0x01#8, 0x82#8, 0x47#8, 0xA0#8, 0xA2#8, 0xA7#8, 0x45#8, 0x46#8, 0x50#8,
      0x11#8, 0x54#8, 0x55#8, 0x56#8]) ∧
    ∀ r, decode op a b = .error r → r = .unknownOpcode op

/-! The step. -/

/-- 40_engine.md section 2 (R101 to R104, R107): when the three bytes at PC are in memory and decode to `i`, the step of
a RUNNING machine is `exec i` at that same state. The engine adds nothing: it does not move PC, before or after. -/
def Obligations.StepRunsTheDecodedInstruction : Prop :=
  ∀ (s : State) (i : Instr), s.status = .running → s.pc + 2 < 255 →
    decode (s.mem.get s.pc) (s.mem.get (s.pc + 1)) (s.mem.get (s.pc + 2)) = .ok i → step s = exec i s

/-- 30_encoding.md section 1 with 40_engine.md section 2: when memory holds the bytes of `i` at PC and the window is in
memory, the step runs `i`, whatever bytes stand after it. -/
def Obligations.StepRunsTheEncodedInstruction : Prop :=
  ∀ (s : State) (i : Instr), s.status = .running → s.pc + 2 < 255 →
    (∀ (k : Nat) (h : k < (encode i).length), s.mem.get (s.pc + k) = (encode i)[k]) → step s = exec i s

/-- 40_engine.md R102: an opcode byte that is in no row of the table raises UNKNOWN_OPCODE with that byte, before any
state mutation for that step. -/
def Obligations.UnknownOpcodeFaultsBeforeAnyMutation : Prop :=
  ∀ s : State, s.status = .running → s.pc + 2 < 255 → (∀ m : Mnemonic, m.opcode ≠ s.mem.get s.pc) →
    ∃ r : FaultRecord, r.kind = .unknownOpcode (s.mem.get s.pc) ∧ step s = .next { s with status := .faulted r }

/-- 40_engine.md section 2 (R101, conflict C1, decision D23; log entry 10): a fetch window that leaves memory raises
MEM_OOB with the first address past it, before decode: 255 for PC 253, 254 and 255, PC itself above. -/
def Obligations.FetchPastMemoryFaults : Prop :=
  ∀ s : State, s.status = .running → 253 ≤ s.pc →
    (s.pc ≤ 255 → TakesFault (step s) (.memOob 255)) ∧ (255 < s.pc → TakesFault (step s) (.memOob s.pc))

/-- 44_control.md R191: no step exists after HLT, and HALTED is permanent (only reset, no step, leaves it). -/
def Obligations.NoStepAfterHlt : Prop :=
  (∀ s t u : State, exec .hlt s = .next t → step t ≠ .next u) ∧
  ∀ s : State, s.status = .halted → step s = .fault .halted

/-- 10_state.md section 5 (R36), 60_exceptions.md section 2: a step has a next state exactly when the machine is
RUNNING; a FAULTED machine answers what its fault recorded, with no next state. -/
def Obligations.StepExistsExactlyWhenRunning : Prop :=
  ∀ s : State, ((∃ t, step s = .next t) ↔ s.status = .running) ∧
    ∀ r, s.status = .faulted r → step s = .fault (.faulted r)

/-! Each instruction: where it completes and with what effect, and where it raises. -/

/-- 41_data_output.md R120. -/
def Obligations.LdiLoadsTheImmediate : Prop :=
  ∀ (s : State) (a b : Byte),
    (∀ h : a.toNat < 8, exec (.ldi a b) s = .next { s with regs := s.regs.set a.toNat b h, pc := s.pc + 3 }) ∧
    (8 ≤ a.toNat → TakesFault (exec (.ldi a b) s) (.regOob a.toNat))

/-- 41_data_output.md R121: the register's byte is emitted, nothing else changes but PC; a faulting PRN emits nothing. -/
def Obligations.PrnEmitsTheRegister : Prop :=
  ∀ (s : State) (a : Byte),
    (∀ h : a.toNat < 8, exec (.prn a) s = .next { s with out := s.out ++ [s.regs[a.toNat]], pc := s.pc + 2 }) ∧
    (8 ≤ a.toNat → TakesFault (exec (.prn a) s) (.regOob a.toNat) ∧ ∀ t, exec (.prn a) s = .next t → t.out = s.out)

/-- 42_alu.md section 2 (R133): `R[a] <- (x + y) mod 256`, both operands read before the write; REG_OOB(a), then
REG_OOB(b) (that order is decision D25, log entry 11). -/
def Obligations.AddAddsModulo256 : Prop :=
  ∀ (s : State) (a b : Byte),
    (∀ (ha : a.toNat < 8) (hb : b.toNat < 8),
      ∃ v : Byte, v.toNat = (s.regs[a.toNat].toNat + s.regs[b.toNat].toNat) % 256 ∧
        exec (.add a b) s = .next { s with regs := s.regs.set a.toNat v ha, pc := s.pc + 3 }) ∧
    (8 ≤ a.toNat → TakesFault (exec (.add a b) s) (.regOob a.toNat)) ∧
    (a.toNat < 8 → 8 ≤ b.toNat → TakesFault (exec (.add a b) s) (.regOob b.toNat))

/-- 42_alu.md section 2 (R134): `R[a] <- (x * y) mod 256`, both operands read before the write; REG_OOB(a), then
REG_OOB(b) (that order is decision D25, log entry 11). -/
def Obligations.MulMultipliesModulo256 : Prop :=
  ∀ (s : State) (a b : Byte),
    (∀ (ha : a.toNat < 8) (hb : b.toNat < 8),
      ∃ v : Byte, v.toNat = (s.regs[a.toNat].toNat * s.regs[b.toNat].toNat) % 256 ∧
        exec (.mul a b) s = .next { s with regs := s.regs.set a.toNat v ha, pc := s.pc + 3 }) ∧
    (8 ≤ a.toNat → TakesFault (exec (.mul a b) s) (.regOob a.toNat)) ∧
    (a.toNat < 8 → 8 ≤ b.toNat → TakesFault (exec (.mul a b) s) (.regOob b.toNat))

/-- 42_alu.md section 2 (R136; the bits written are decision D21, log entry 13): `FL <- FL OR 0x01` for equal operands,
FL unchanged for different ones, no register written; REG_OOB(a), then REG_OOB(b) (that order is D25, log entry 11). -/
def Obligations.CmpSetsTheEqualFlag : Prop :=
  ∀ (s : State) (a b : Byte),
    (∀ (_ : a.toNat < 8) (_ : b.toNat < 8),
      (s.regs[a.toNat] = s.regs[b.toNat] → exec (.cmp a b) s = .next { s with fl := s.fl ||| 0x01#8, pc := s.pc + 3 }) ∧
      (s.regs[a.toNat] ≠ s.regs[b.toNat] → exec (.cmp a b) s = .next { s with pc := s.pc + 3 })) ∧
    (8 ≤ a.toNat → TakesFault (exec (.cmp a b) s) (.regOob a.toNat)) ∧
    (a.toNat < 8 → 8 ≤ b.toNat → TakesFault (exec (.cmp a b) s) (.regOob b.toNat))

/-- 43_stack.md sections 1 and 2 (R150, R153): SP - 1, then the byte stored there; PUSH R7 pushes the decremented SP
(the sequential reading, log entry 12). REG_OOB before MEM_OOB (decision D25, log entry 11); SP = 0 raises MEM_OOB(255)
(SP wraps, decision D5, log entry 7). -/
def Obligations.PushStoresBelowTheStackPointer : Prop :=
  ∀ (s : State) (a : Byte),
    (∀ _ : a.toNat < 8, s.sp ≠ 0#8 → exec (.push a) s = .next { s with
      regs := s.regs.set 7 (s.sp - 1#8)
      mem := s.mem.set (s.sp - 1#8).toNat (if a.toNat = 7 then s.sp - 1#8 else s.regs[a.toNat])
      pc := s.pc + 2 }) ∧
    (8 ≤ a.toNat → TakesFault (exec (.push a) s) (.regOob a.toNat)) ∧
    (a.toNat < 8 → s.sp = 0#8 → TakesFault (exec (.push a) s) (.memOob 255))

/-- 43_stack.md sections 1 and 2 (R151, R154): the byte at SP goes to the register, then SP + 1; POP R7 leaves the byte
plus 1 (the sequential reading and decision D5, log entries 7 and 12). SP = 255 raises MEM_OOB(255), before REG_OOB
(decision D25, log entry 11). -/
def Obligations.PopLoadsFromTheStackPointer : Prop :=
  ∀ (s : State) (a : Byte),
    (∀ h : a.toNat < 8, s.sp ≠ 255#8 → a.toNat ≠ 7 → exec (.pop a) s = .next { s with
      regs := (s.regs.set a.toNat (s.mem.get s.sp.toNat) h).set 7 (s.sp + 1#8), pc := s.pc + 2 }) ∧
    (s.sp ≠ 255#8 → a.toNat = 7 → exec (.pop a) s = .next { s with
      regs := s.regs.set 7 (s.mem.get s.sp.toNat + 1#8), pc := s.pc + 2 }) ∧
    (s.sp = 255#8 → TakesFault (exec (.pop a) s) (.memOob 255)) ∧
    (8 ≤ a.toNat → s.sp ≠ 255#8 → TakesFault (exec (.pop a) s) (.regOob a.toNat))

/-- 44_control.md section 3 (R180): PC + 2 pushed, then PC from the register; CALL R7 jumps to the decremented SP (the
sequential reading, log entry 12). `s.pc + 2 < 255` is "fetch succeeded". SP = 0 raises MEM_OOB(255), before REG_OOB
(decisions D5 and D25, log entries 7 and 11). -/
def Obligations.CallPushesTheReturnAddress : Prop :=
  ∀ (s : State) (a : Byte), s.pc + 2 < 255 →
    (∀ _ : a.toNat < 8, s.sp ≠ 0#8 → ∃ r : Byte, r.toNat = s.pc + 2 ∧ exec (.call a) s = .next { s with
      regs := s.regs.set 7 (s.sp - 1#8)
      mem := s.mem.set (s.sp - 1#8).toNat r
      pc := (if a.toNat = 7 then s.sp - 1#8 else s.regs[a.toNat]).toNat }) ∧
    (s.sp = 0#8 → TakesFault (exec (.call a) s) (.memOob 255)) ∧
    (8 ≤ a.toNat → s.sp ≠ 0#8 → TakesFault (exec (.call a) s) (.regOob a.toNat))

/-- 44_control.md R182: PC from the byte at SP, SP + 1; MEM_OOB(SP) where SP is past memory. -/
def Obligations.RetPopsTheProgramCounter : Prop :=
  ∀ s : State,
    (s.sp.toNat < 255 → exec .ret s = .next { s with
      regs := s.regs.set 7 (s.sp + 1#8), pc := (s.mem.get s.sp.toNat).toNat }) ∧
    (255 ≤ s.sp.toNat → TakesFault (exec .ret s) (.memOob s.sp.toNat))

/-- 44_control.md R171: PC from the register, whatever address it holds. -/
def Obligations.JmpJumpsToTheRegister : Prop :=
  ∀ (s : State) (a : Byte),
    (∀ _ : a.toNat < 8, exec (.jmp a) s = .next { s with pc := s.regs[a.toNat].toNat }) ∧
    (8 ≤ a.toNat → TakesFault (exec (.jmp a) s) (.regOob a.toNat))

/-- 44_control.md section 2 (R172; the check at use only is decision D6, log entry 8): taken when E is set; not taken,
the register is not read, so no index faults. -/
def Obligations.JeqJumpsWhenEqual : Prop :=
  ∀ (s : State) (a : Byte),
    (∀ _ : a.toNat < 8, s.fl.getLsbD 0 = true → exec (.jeq a) s = .next { s with pc := s.regs[a.toNat].toNat }) ∧
    (s.fl.getLsbD 0 = false → exec (.jeq a) s = .next { s with pc := s.pc + 2 }) ∧
    (8 ≤ a.toNat → s.fl.getLsbD 0 = true → TakesFault (exec (.jeq a) s) (.regOob a.toNat))

/-- 44_control.md section 2 (R173; decision D6, log entry 8): taken when E is clear; not taken, the register is not
read, so no index faults. -/
def Obligations.JneJumpsWhenNotEqual : Prop :=
  ∀ (s : State) (a : Byte),
    (∀ _ : a.toNat < 8, s.fl.getLsbD 0 = false → exec (.jne a) s = .next { s with pc := s.regs[a.toNat].toNat }) ∧
    (s.fl.getLsbD 0 = true → exec (.jne a) s = .next { s with pc := s.pc + 2 }) ∧
    (8 ≤ a.toNat → s.fl.getLsbD 0 = false → TakesFault (exec (.jne a) s) (.regOob a.toNat))

/-- 44_control.md section 4 (R190; PC unchanged is decision D29, log entry 18): HLT completes from every state, sets
STATUS to HALTED and changes nothing else; and no step of any other instruction, nor a fault, makes a machine HALTED. -/
def Obligations.HltAndOnlyHltHalts : Prop :=
  (∀ s : State, exec .hlt s = .next { s with status := .halted }) ∧
  ∀ s t : State, step s = .next t → t.status = .halted →
    s.pc + 2 < 255 ∧ decode (s.mem.get s.pc) (s.mem.get (s.pc + 1)) (s.mem.get (s.pc + 2)) = .ok .hlt

/-! Frames: what an instruction that completes leaves unchanged. -/

/-- LDI, ADD, MUL (41_data_output.md, 42_alu.md section 2): only register `a` and PC change. -/
def Obligations.RegisterWritersFrame : Prop :=
  ∀ (i : Instr) (a b : Byte) (s t : State), (i = .ldi a b ∨ i = .add a b ∨ i = .mul a b) → exec i s = .next t →
    t.isFaulted = false →
    RegsKept s t [a.toNat] ∧ t.fl = s.fl ∧ t.status = s.status ∧ MemKept s t ∧ t.out = s.out

/-- CMP (42_alu.md section 2): no register, and of FL no bit but E, changes. -/
def Obligations.CmpFrame : Prop :=
  ∀ (a b : Byte) (s t : State), exec (.cmp a b) s = .next t → t.isFaulted = false →
    RegsKept s t [] ∧ (∀ n, n ≠ 0 → t.fl.getLsbD n = s.fl.getLsbD n) ∧ t.status = s.status ∧ MemKept s t ∧ t.out = s.out

/-- PRN (41_data_output.md): nothing but PC and OUT changes, and OUT grows by one byte at its end. -/
def Obligations.PrnFrame : Prop :=
  ∀ (a : Byte) (s t : State), exec (.prn a) s = .next t → t.isFaulted = false →
    RegsKept s t [] ∧ t.fl = s.fl ∧ t.status = s.status ∧ MemKept s t ∧ ∃ v, t.out = s.out ++ [v]

/-- JMP, JEQ, JNE (44_control.md section 2): nothing but PC changes. -/
def Obligations.JumpFrame : Prop :=
  ∀ (i : Instr) (a : Byte) (s t : State), (i = .jmp a ∨ i = .jeq a ∨ i = .jne a) → exec i s = .next t →
    t.isFaulted = false →
    RegsKept s t [] ∧ t.fl = s.fl ∧ t.status = s.status ∧ MemKept s t ∧ t.out = s.out

/-- HLT (44_control.md section 4): nothing but STATUS changes; that PC does not is decision D29 (log entry 18). -/
def Obligations.HltFrame : Prop :=
  ∀ s t : State, exec .hlt s = .next t →
    RegsKept s t [] ∧ t.pc = s.pc ∧ t.fl = s.fl ∧ MemKept s t ∧ t.out = s.out

/-- PUSH, CALL (43_stack.md section 2, 44_control.md section 3): no register but SP; no byte of memory but the one at
`pushAddr s`, the decremented stack pointer, which is the address the meaning stores to. -/
def Obligations.StackWritersFrame : Prop :=
  ∀ (i : Instr) (a : Byte) (s t : State), (i = .push a ∨ i = .call a) → exec i s = .next t → t.isFaulted = false →
    RegsKept s t [7] ∧ t.fl = s.fl ∧ t.status = s.status ∧ t.out = s.out ∧
    ∀ x, x ≠ pushAddr s → t.mem.get x = s.mem.get x

/-- POP, RET (43_stack.md section 2, 44_control.md section 3): no register but SP and POP's destination; no memory (the
popped cell is not cleared). -/
def Obligations.StackReadersFrame : Prop :=
  (∀ (a : Byte) (s t : State), exec (.pop a) s = .next t → t.isFaulted = false →
    RegsKept s t [a.toNat, 7] ∧ t.fl = s.fl ∧ t.status = s.status ∧ MemKept s t ∧ t.out = s.out) ∧
  (∀ s t : State, exec .ret s = .next t → t.isFaulted = false →
    RegsKept s t [7] ∧ t.fl = s.fl ∧ t.status = s.status ∧ MemKept s t ∧ t.out = s.out)

/-! Rules of the whole machine. -/

/-- Memory stays canonical (log entry 17), PC stays in 0..255 (10_state.md section 3, R30) and bits 7..1 of FL stay 0
(section 4, R34), over every step from every state where they hold. For a step that takes a fault this is decision D7
(log entry 9). -/
def Obligations.StepKeepsTheInvariant : Prop := ∀ s t : State, s.Inv → step s = .next t → t.Inv

/-- 10_state.md section 3 (R29): the PC update of each instruction that completes (CALL R7's by the sequential reading,
log entry 12; HLT's by D29, log entry 18); and the engine itself never advances PC. -/
def Obligations.EachHandlerMovesThePc : Prop :=
  (∀ (i : Instr) (s t : State), exec i s = .next t → t.isFaulted = false →
    match i with
    | .ldi _ _ | .add _ _ | .mul _ _ | .cmp _ _ => t.pc = s.pc + 3
    | .prn _ | .push _ | .pop _ => t.pc = s.pc + 2
    | .jmp a => ∃ _ : a.toNat < 8, t.pc = s.regs[a.toNat].toNat
    | .jeq a => if flagE s.fl then ∃ _ : a.toNat < 8, t.pc = s.regs[a.toNat].toNat else t.pc = s.pc + 2
    | .jne a => if flagE s.fl then t.pc = s.pc + 2 else ∃ _ : a.toNat < 8, t.pc = s.regs[a.toNat].toNat
    | .call a => ∃ _ : a.toNat < 8, t.pc = s.decSp.regs[a.toNat].toNat
    | .ret => t.pc = (s.mem.get s.sp.toNat).toNat
    | .hlt => t.pc = s.pc) ∧
  ∀ (s : State) (i : Instr), s.status = .running → fetchDecode s = .ok i → step s = exec i s

/-- 42_alu.md section 2 (R137), 10_state.md section 4 (R32, R33): E is clear at reset (decision D4, log
entry 6), and after an instruction that completes it is set exactly when it was set before or the instruction is a CMP
of equal registers. So nothing clears it. -/
def Obligations.EqualFlagIsSticky : Prop :=
  flagE State.reset.fl = false ∧
  ∀ (i : Instr) (s t : State), exec i s = .next t → t.isFaulted = false →
    (flagE t.fl = true ↔ flagE s.fl = true ∨
      ∃ (a b : Byte) (_ : a.toNat < 8) (_ : b.toNat < 8), i = .cmp a b ∧ s.regs[a.toNat] = s.regs[b.toNat])

/-- 20_memory.md section 1 (R53): a step changes a byte of memory only at the decremented stack pointer, and only where
it executes a PUSH or a CALL. -/
def Obligations.MemoryChangesOnlyByPushAndCall : Prop :=
  ∀ (s t : State) (x : Nat), step s = .next t → t.isFaulted = false → t.mem.get x ≠ s.mem.get x →
    x = pushAddr s ∧ x < 255 ∧ ∃ a : Byte, fetchDecode s = .ok (.push a) ∨ fetchDecode s = .ok (.call a)

/-- 10_state.md R38: OUT is empty at reset, only PRN appends to it, at its end, and no instruction reads it: with any
other output history the instruction gives the same STATUS, so the same fault if it raises one, and one that completes
does the same and appends the same. -/
def Obligations.OutputOnlyGrowsByPrnAndIsNeverRead : Prop :=
  State.reset.out = [] ∧
  (∀ (i : Instr) (s t : State), exec i s = .next t → t.isFaulted = false →
    t.out = s.out ∨ ∃ (a : Byte) (_ : a.toNat < 8), i = .prn a ∧ t.out = s.out ++ [s.regs[a.toNat]]) ∧
  ∀ (i : Instr) (s t : State) (o : List Byte), exec i s = .next t →
    ∃ u : State, exec i { s with out := o } = .next u ∧ u.status = t.status ∧
      (t.isFaulted = false → ∃ w, t.out = s.out ++ w ∧ u = { t with out := o ++ w })

/-! Memory, the ALU, the stack. -/

/-- 20_memory.md R51, R52: the two accessors. A read in bounds answers the byte, a write in bounds changes that cell and
nothing else; out of bounds each raises MEM_OOB with the address. (That the state's memory is canonical is a premise: the
form every memory operation keeps, MemoryOperationsKeepTheCanonicalForm.) -/
def Obligations.MemoryAccessorsKeepTheirContract : Prop :=
  ∀ (s : State) (a : Nat) (v : Byte), s.mem.wf →
    (a < 255 → memRead s a = .ok (s.mem.get a) ∧
      ∃ m : Memory, memWrite s a v = .ok { s with mem := m } ∧
        ∀ x, m.get x = if x = a then v else s.mem.get x) ∧
    (255 ≤ a → memRead s a = .error (.memOob a) ∧ memWrite s a v = .error (.memOob a))

/-- The canonical form of memory, which is the model's (log entry 17): a write, a load of one byte (also where it
faults), a loaded image of any length and the host's placing of an instruction keep it. -/
def Obligations.MemoryOperationsKeepTheCanonicalForm : Prop :=
  (∀ (s t : State) (a : Nat) (v : Byte), s.mem.wf → memWrite s a v = .ok t → t.mem.wf) ∧
  (∀ (s : State) (a : Nat) (v : Byte), s.mem.wf → (loadByte s a v).mem.wf) ∧
  (∀ img : List Byte, (boot img).mem.wf) ∧
  ∀ (s : State) (nbits w : Nat), s.mem.wf → (s.withFetchWord nbits w).mem.wf

/-- 42_alu.md section 1 (R130): what the ALU answers depends on the kind, the indices, the register file and FL alone,
and it changes nothing but the register file and FL. -/
def Obligations.AluReadsOnlyRegistersAndFlags : Prop :=
  ∀ (kind : AluKind) (a b : Byte) (s t u : State), s.regs = u.regs → s.fl = u.fl → alu kind a b s = .ok t →
    t = { s with regs := t.regs, fl := t.fl } ∧ alu kind a b u = .ok { u with regs := t.regs, fl := t.fl }

/-- 42_alu.md section 2 (R135): ADD and MUL are commutative in their values and associative modulo 256, and leave the
source register `b` as it was when `b` differs from `a`. -/
def Obligations.AddAndMulLaws : Prop :=
  (∀ (s : State) (a b : Byte) (_ : a.toNat < 8) (_ : b.toNat < 8),
    ∃ t u v w : State, exec (.add a b) s = .next t ∧ exec (.add b a) s = .next u ∧ exec (.mul a b) s = .next v ∧
      exec (.mul b a) s = .next w ∧ t.regs[a.toNat] = u.regs[b.toNat] ∧ v.regs[a.toNat] = w.regs[b.toNat] ∧
      (b ≠ a → t.regs[b.toNat] = s.regs[b.toNat] ∧ v.regs[b.toNat] = s.regs[b.toNat])) ∧
  ∀ x y z : Byte, aluSum (aluSum x y) z = aluSum x (aluSum y z) ∧
    aluProduct (aluProduct x y) z = aluProduct x (aluProduct y z)

/-- 43_stack.md section 2 (R155): PUSH of a register then POP to a register, neither R7, from 1 <= SP: the value is
carried over, SP is back, and the cell below keeps the value. -/
def Obligations.PushThenPopRoundTrips : Prop :=
  ∀ (s : State) (a b : Byte) (_ : a.toNat < 7) (_ : b.toNat < 7), s.mem.wf → s.sp ≠ 0#8 →
    ∃ t u : State, exec (.push a) s = .next t ∧ exec (.pop b) t = .next u ∧
      u.regs[b.toNat] = s.regs[a.toNat] ∧ u.sp = s.sp ∧ u.mem.get (s.sp.toNat - 1) = s.regs[a.toNat]

/-- 44_control.md section 3 (R183): a RET at which SP and MEM[SP] are as CALL left them returns to the call site plus 2,
with SP as before the CALL. -/
def Obligations.CallThenRetReturns : Prop :=
  ∀ (s : State) (a : Byte), a.toNat < 8 → s.mem.wf → s.pc + 2 < 255 → s.sp ≠ 0#8 →
    ∃ t : State, exec (.call a) s = .next t ∧
      ∀ u : State, u.sp = t.sp → u.mem.get t.sp.toNat = t.mem.get t.sp.toNat →
        ∃ v : State, exec .ret u = .next v ∧ v.pc = s.pc + 2 ∧ v.sp = s.sp

/-- 20_memory.md section 4 (R63), 70_reset_and_hazards.md section 4 (R237): the byte a PUSH or a CALL writes into code is
what the next fetch reads there, as opcode, first or second operand byte. For PUSH the next fetch is at PC + 2 and the
byte is R[a], for R7 the decremented SP; for CALL it is at the target (R[a], for R7 the decremented SP) and the byte is
the return address PC + 2. R7 is the sequential reading (log entry 12). -/
def Obligations.FetchSeesThePushedByte : Prop :=
  (∀ (s : State) (a : Byte) (_ : a.toNat < 8) (v : Byte), s.mem.wf → s.sp ≠ 0#8 → s.pc + 4 < 255 →
    v = (if a.toNat = 7 then s.sp - 1#8 else s.regs[a.toNat]) →
    ∃ (t : State) (op x y : Byte), exec (.push a) s = .next t ∧ fetch t = .ok (op, x, y) ∧
      (pushAddr s = s.pc + 2 → op = v) ∧ (pushAddr s = s.pc + 3 → x = v) ∧ (pushAddr s = s.pc + 4 → y = v)) ∧
  (∀ (s : State) (a : Byte) (_ : a.toNat < 8) (target : Nat), s.mem.wf → s.sp ≠ 0#8 → s.pc + 2 < 255 →
    target = (if a.toNat = 7 then s.sp - 1#8 else s.regs[a.toNat]).toNat → target + 2 < 255 →
    ∃ (t : State) (r op x y : Byte), r.toNat = s.pc + 2 ∧ exec (.call a) s = .next t ∧ fetch t = .ok (op, x, y) ∧
      (pushAddr s = target → op = r) ∧ (pushAddr s = target + 1 → x = r) ∧ (pushAddr s = target + 2 → y = r))

/-! Faults. -/

/-- 60_exceptions.md sections 1 and 2 (R201 to R205, R207): every fault a step takes has its cause, and records the
address of the instruction. MEM_OOB: a fetch from PC >= 253 (decision D23, log entry 10), a PUSH or CALL with SP = 0, a POP
or RET with SP = 255 (that SP wraps is D5, log entry 7). REG_OOB: a byte that is 8 or above and that the instruction uses
as a register index, so never LDI's immediate. UNKNOWN_OPCODE: the byte at PC is in no row. No other kind (R205's
UNWRITTEN_REG never, by log entry 1). The recorded address is D8 (log entry 21). -/
def Obligations.EveryFaultHasItsCause : Prop :=
  ∀ (s t : State) (r : FaultRecord), step s = .next t → t.status = .faulted r →
    r.pc = s.pc ∧
    match r.kind with
    | .memOob x =>
      (253 ≤ s.pc ∧ x = max s.pc 255) ∨
      (x = 255 ∧ s.sp = 0#8 ∧ ∃ a, fetchDecode s = .ok (.push a) ∨ fetchDecode s = .ok (.call a)) ∨
      (x = 255 ∧ s.sp = 255#8 ∧ (fetchDecode s = .ok .ret ∨ ∃ a, fetchDecode s = .ok (.pop a)))
    | .regOob n => ∃ i, fetchDecode s = .ok i ∧ 8 ≤ n ∧ ∃ b ∈ i.registerOperands, b.toNat = n
    | .unknownOpcode op => op = s.mem.get s.pc ∧ ∀ m : Mnemonic, m.opcode ≠ op
    | .unsupportedAluOp _ => False
    | .unwrittenReg _ => False

/-- 60_exceptions.md R202: the ALU raises UNSUPPORTED_ALU_OP with the kind for a kind outside ADD, MUL and CMP, and for no
other; no step, whatever instruction it executes, takes that fault. -/
def Obligations.UnsupportedAluOpIsGuardedAndUnreachable : Prop :=
  (∀ (kind : AluKind) (a b : Byte) (s : State),
    kind ≠ .add → kind ≠ .mul → kind ≠ .cmp → alu kind a b s = .error (.unsupportedAluOp kind)) ∧
  (∀ (kind k : AluKind) (a b : Byte) (s : State), alu kind a b s = .error (.unsupportedAluOp k) →
    k = kind ∧ kind ≠ .add ∧ kind ≠ .mul ∧ kind ≠ .cmp) ∧
  ∀ (s t : State) (r : FaultRecord) (k : AluKind), step s = .next t → t.status = .faulted r →
    r.kind ≠ .unsupportedAluOp k

/-- 10_state.md section 1 (R22), 60_exceptions.md section 1 (R203): an instruction whose register operands are 0..7 raises
no REG_OOB. -/
def Obligations.WellFormedInstructionsRaiseNoRegOob : Prop :=
  ∀ (i : Instr) (s t : State) (r : FaultRecord) (n : Nat), i.wellFormed = true → s.status = .running →
    exec i s = .next t → t.status = .faulted r → r.kind ≠ .regOob n

/-- 60_exceptions.md section 1 (R201 to R205), the allowed side of EveryFaultHasItsCause: a RUNNING machine whose window
is in memory and decodes to a well-formed instruction takes a step with no fault, where a PUSH or CALL finds SP other
than 0 and a POP or RET finds SP other than 255. -/
def Obligations.StepsAwayFromTheEdgesAreSafe : Prop :=
  ∀ (s : State) (i : Instr), s.status = .running → fetchDecode s = .ok i → i.wellFormed = true →
    (∀ a, i = .push a ∨ i = .call a → s.sp ≠ 0#8) → (∀ a, i = .pop a ∨ i = .ret → s.sp ≠ 255#8) → SafeStep s

/-- 40_engine.md section 3 (R110): a run from a RUNNING machine is over in a HALTED state only through a step of the run
that executes HLT. -/
def Obligations.RunsEndOnlyThroughHlt : Prop :=
  ∀ s t : State, s.status = .running → EndsIn s t →
    ∃ (n : Nat) (u : State), runFor n s = u ∧ fetchDecode u = .ok .hlt ∧ step u = .next t

/-- 60_exceptions.md section 2 (R208), 40_engine.md section 2 (R105): a step that takes a fault, and a handler that raises
one, changes STATUS and nothing else. For every fault but UNKNOWN_OPCODE this is decision D7, the spec's own choice (log
entry 9). Beside it only StepKeepsTheInvariant and PrnEmitsTheRegister (OUT) speak of a faulted state's other fields. -/
def Obligations.FaultEntryCommitsNothing : Prop :=
  (∀ s t : State, step s = .next t → t.isFaulted = true → t = { s with status := t.status }) ∧
  ∀ (i : Instr) (s t : State), s.isFaulted = false → exec i s = .next t → t.isFaulted = true →
    t = { s with status := t.status }

/-- 40_engine.md section 3 (R111; decision D18, log entry 19): what the trace shows. -/
def Obligations.TraceShowsPcBytesAndRegisters : Prop :=
  ∀ s : State, (traceView s).pc = s.pc ∧ (traceView s).regs = s.regs ∧
    ∀ k, k < 3 → (traceView s).bytes[k]? = some (if s.pc + k < 255 then some (s.mem.get (s.pc + k)) else none)
end

