-- ==== Sys2Proof/Laws/Decode.lean ====
section
/-!
SUPPORT. Laws of the opcode table and the decoder: distinct opcodes, what the lookup answers, what decode answers.
-/

namespace Sys2Proof

/-- Every mnemonic is a row of the table. -/
theorem Mnemonic.mem_all (m : Mnemonic) : m ∈ Mnemonic.all := by cases m <;> decide

/-- No two rows of the table share an opcode. -/
theorem Mnemonic.opcode_injective {m n : Mnemonic} (h : m.opcode = n.opcode) : m = n := by
  have key : ∀ m ∈ Mnemonic.all, ∀ n ∈ Mnemonic.all, m.opcode = n.opcode → m = n := by decide
  exact key m m.mem_all n n.mem_all h

/-- The lookup answers the mnemonic whose opcode the byte is. -/
theorem lookupOpcode_eq_some {op : Byte} {m : Mnemonic} : lookupOpcode op = some m ↔ m.opcode = op := by
  constructor
  · intro h
    have := List.find?_some h
    exact eq_of_beq this
  · rintro rfl
    cases m <;> decide

/-- The lookup misses exactly the bytes that are no opcode. -/
theorem lookupOpcode_eq_none {op : Byte} : lookupOpcode op = none ↔ ∀ m : Mnemonic, m.opcode ≠ op := by
  rw [Option.eq_none_iff_forall_ne_some]
  exact forall_congr' fun m => not_congr lookupOpcode_eq_some

/-- What decode accepts: the mnemonic is the opcode's, the operands are the window's. -/
theorem decode_eq_ok {op a b : Byte} {i : Instr} :
    decode op a b = .ok i ↔ ∃ m : Mnemonic, m.opcode = op ∧ i = m.instr a b := by
  unfold decode
  cases h : lookupOpcode op with
  | none => simpa using fun m hm => absurd hm (lookupOpcode_eq_none.mp h m)
  | some n =>
    have hn := lookupOpcode_eq_some.mp h
    constructor
    · intro he
      cases he
      exact ⟨n, hn, rfl⟩
    · rintro ⟨m, hm, rfl⟩
      rw [Mnemonic.opcode_injective (hm.trans hn.symm)]

/-- What decode rejects: an opcode byte that is in no row, by its name. -/
theorem decode_eq_error {op a b : Byte} {r : Reject} :
    decode op a b = .error r ↔ (∀ m : Mnemonic, m.opcode ≠ op) ∧ r = .unknownOpcode op := by
  unfold decode
  cases h : lookupOpcode op with
  | none => simp [lookupOpcode_eq_none.mp h, eq_comm]
  | some n => simpa using fun hn => absurd (lookupOpcode_eq_some.mp h) (hn n)

end Sys2Proof
end

