-- ==== Sys2Proof/Laws/Flags.lean ====
section
/-!
SUPPORT. Laws of the flags: a comparison sets E when its operands are equal, and changes no other bit.
-/

namespace Sys2Proof.Machine

/-- E after a comparison: it was set, or the operands are equal. -/
theorem flagE_cmpFlags (fl x y : Byte) : flagE (cmpFlags fl x y) = (flagE fl || decide (x = y)) := by
  unfold cmpFlags flagE maskE
  split <;> simp_all

/-- A comparison leaves bits 7..1 of FL as they are. -/
theorem cmpFlags_other_bits (fl x y : Byte) {n : Nat} (hn : n ≠ 0) :
    (cmpFlags fl x y).getLsbD n = fl.getLsbD n := by
  unfold cmpFlags maskE
  split
  · rw [BitVec.getLsbD_or]
    rcases n with _ | n
    · exact absurd rfl hn
    · have : (0x01#8).getLsbD (n + 1) = false := by simp [BitVec.getLsbD_one]
      rw [this, Bool.or_false]
  · rfl

/-- A comparison keeps the reserved bits of FL zero. -/
theorem cmpFlags_reserved {fl : Byte} (h : fl &&& 0xFE#8 = 0x00#8) (x y : Byte) :
    cmpFlags fl x y &&& 0xFE#8 = 0x00#8 := by
  unfold cmpFlags maskE
  split
  · rw [BitVec.and_comm, BitVec.and_or_distrib_left, BitVec.and_comm _ fl, h]
    decide
  · exact h

end Sys2Proof.Machine
end

