-- ==== Sys2Proof/Laws/Memory.lean ====
section
/-!
SUPPORT. Laws of memory as data: a read after a write, and the canonical form, which every memory operation keeps.
-/

namespace Sys2Proof.Machine

@[simp] theorem Memory.get_nil (a : Nat) : Memory.get [] a = unlistedByte := rfl

theorem Memory.get_cons (c : Host.Cell) (m : Memory) (a : Nat) :
    Memory.get (c :: m) a = if a = c.1 then c.2 else m.get a := rfl

@[simp] theorem Memory.wf_nil : Memory.wf [] := ⟨.nil, by simp⟩

/-- The tail of a canonical memory is canonical. -/
theorem Memory.wf_tail {c : Host.Cell} {m : Memory} (h : Memory.wf (c :: m)) : Memory.wf m :=
  ⟨(List.pairwise_cons.mp h.1).2, fun d hd => h.2 d (List.mem_cons_of_mem _ hd)⟩

/-- An address below all listed ones reads as unlisted. -/
theorem Memory.get_of_below {m : Memory} {a : Nat} (h : ∀ c ∈ m, a < c.1) : m.get a = unlistedByte := by
  induction m with
  | nil => rfl
  | cons c m ih =>
    have hc := h c (List.mem_cons_self ..)
    rw [Memory.get_cons, if_neg (by omega), ih fun d hd => h d (List.mem_cons_of_mem _ hd)]

/-- Reading through `consCell`, in front of a memory that lies above it. -/
theorem Memory.get_consCell {m : Memory} {a : Nat} (h : ∀ c ∈ m, a < c.1) (v : Byte) (x : Nat) :
    (Memory.consCell a v m).get x = if x = a then v else m.get x := by
  unfold Memory.consCell
  split
  · next hv =>
    split
    · next hx => rw [hx, Memory.get_of_below h, hv]
    · rfl
  · exact Memory.get_cons _ _ _

/-- A read after a write: the written byte at its address, every other address as before. -/
theorem Memory.get_set {m : Memory} (h : m.wf) (a : Nat) (v : Byte) (x : Nat) :
    (m.set a v).get x = if x = a then v else m.get x := by
  induction m with
  | nil => exact Memory.get_consCell (by simp) v x
  | cons c m ih =>
    have above : ∀ d ∈ m, c.1 < d.1 := (List.pairwise_cons.mp h.1).1
    rw [Memory.set]
    split
    · next hlt =>
      refine Memory.get_consCell ?_ v x
      intro d hd
      rcases List.mem_cons.mp hd with rfl | hd
      · exact hlt
      · exact Nat.lt_trans hlt (above d hd)
    · split
      · next heq =>
        rw [Memory.get_consCell (fun d hd => by have := above d hd; omega) v x, Memory.get_cons]
        split
        · rfl
        · rw [if_neg (by omega)]
      · next hne =>
        rw [Memory.get_cons, Memory.get_cons, ih (Memory.wf_tail h)]
        split
        · rw [if_neg (by omega)]
        · rfl

/-- A write leaves every other address as it was, in any list. -/
theorem Memory.get_set_other (m : Memory) {a x : Nat} (hx : x ≠ a) (v : Byte) : (m.set a v).get x = m.get x := by
  have cons : ∀ n : Memory, (Memory.consCell a v n).get x = n.get x := fun n => by
    unfold Memory.consCell
    split
    · rfl
    · rw [Memory.get_cons, if_neg hx]
  induction m with
  | nil => exact cons []
  | cons c m ih =>
    rw [Memory.set]
    split
    · exact cons _
    · split
      · next heq => rw [cons, Memory.get_cons, if_neg (heq ▸ hx)]
      · rw [Memory.get_cons, Memory.get_cons, ih]

/-- `consCell` lists nothing but the given cell and the given memory. -/
theorem Memory.mem_consCell {m : Memory} {a : Nat} {v : Byte} {c : Host.Cell} (h : c ∈ Memory.consCell a v m) :
    (c = (a, v) ∧ v ≠ unlistedByte) ∨ c ∈ m := by
  unfold Memory.consCell at h
  split at h
  · exact .inr h
  · next hv =>
    rcases List.mem_cons.mp h with rfl | h
    · exact .inl ⟨rfl, hv⟩
    · exact .inr h

/-- `set` lists nothing but the written cell and what was listed. -/
theorem Memory.mem_set {m : Memory} {a : Nat} {v : Byte} {c : Host.Cell} (h : c ∈ m.set a v) :
    (c = (a, v) ∧ v ≠ unlistedByte) ∨ c ∈ m := by
  induction m with
  | nil => exact Memory.mem_consCell h
  | cons d m ih =>
    rw [Memory.set] at h
    split at h
    · exact Memory.mem_consCell h
    · split at h
      · exact (Memory.mem_consCell h).imp id (List.mem_cons_of_mem _)
      · rcases List.mem_cons.mp h with rfl | h
        · exact .inr (List.mem_cons_self ..)
        · exact (ih h).imp id (List.mem_cons_of_mem _)

/-- `consCell` keeps the strictly rising order. -/
theorem Memory.pairwise_consCell {m : Memory} {a : Nat} (v : Byte) (h : ∀ c ∈ m, a < c.1)
    (hm : m.Pairwise (fun c d => c.1 < d.1)) : (Memory.consCell a v m).Pairwise (fun c d => c.1 < d.1) := by
  unfold Memory.consCell
  split
  · exact hm
  · exact List.pairwise_cons.mpr ⟨h, hm⟩

/-- `set` keeps the strictly rising order. -/
theorem Memory.pairwise_set {m : Memory} (a : Nat) (v : Byte) (h : m.Pairwise (fun c d => c.1 < d.1)) :
    (m.set a v).Pairwise (fun c d => c.1 < d.1) := by
  induction m with
  | nil => exact Memory.pairwise_consCell v (by simp) .nil
  | cons c m ih =>
    obtain ⟨above, hm⟩ := List.pairwise_cons.mp h
    rw [Memory.set]
    split
    · next hlt =>
      refine Memory.pairwise_consCell v ?_ h
      intro d hd
      rcases List.mem_cons.mp hd with rfl | hd
      · exact hlt
      · exact Nat.lt_trans hlt (above d hd)
    · split
      · next heq => exact Memory.pairwise_consCell v (fun d hd => heq ▸ above d hd) hm
      · next hlt hne =>
        refine List.pairwise_cons.mpr ⟨fun d hd => ?_, ih hm⟩
        rcases Memory.mem_set hd with ⟨rfl, _⟩ | hd
        · show c.1 < a
          omega
        · exact above d hd

/-- A write to a cell of memory keeps the canonical form. -/
theorem Memory.wf_set {m : Memory} (h : m.wf) {a : Nat} (ha : a < memSize) (v : Byte) : (m.set a v).wf := by
  refine ⟨Memory.pairwise_set a v h.1, fun c hc => ?_⟩
  rcases Memory.mem_set hc with ⟨rfl, hv⟩ | hc
  · exact ⟨ha, hv⟩
  · exact h.2 c hc

/-- Canonical memories that read alike are the same list. -/
theorem Memory.ext_of_get {m n : Memory} (hm : m.wf) (hn : n.wf) (h : ∀ a, m.get a = n.get a) : m = n := by
  induction m generalizing n with
  | nil =>
    cases n with
    | nil => rfl
    | cons d n =>
      have := h d.1
      rw [Memory.get_nil, Memory.get_cons, if_pos rfl] at this
      exact absurd this.symm (hn.2 d (List.mem_cons_self ..)).2
  | cons c m ih =>
    have cAbove := (List.pairwise_cons.mp hm.1).1
    have hcv := (hm.2 c (List.mem_cons_self ..)).2
    cases n with
    | nil =>
      have := h c.1
      rw [Memory.get_nil, Memory.get_cons, if_pos rfl] at this
      exact absurd this hcv
    | cons d n =>
      have dAbove := (List.pairwise_cons.mp hn.1).1
      have hdv := (hn.2 d (List.mem_cons_self ..)).2
      have hkey : c.1 = d.1 := by
        rcases Nat.lt_trichotomy c.1 d.1 with hlt | heq | hgt
        · have := h c.1
          rw [Memory.get_cons, if_pos rfl, Memory.get_of_below (m := d :: n)] at this
          · exact absurd this hcv
          · intro e he
            rcases List.mem_cons.mp he with rfl | he
            · exact hlt
            · exact Nat.lt_trans hlt (dAbove e he)
        · exact heq
        · have := h d.1
          rw [Memory.get_cons d, if_pos rfl, Memory.get_of_below (m := c :: m)] at this
          · exact absurd this.symm hdv
          · intro e he
            rcases List.mem_cons.mp he with rfl | he
            · exact hgt
            · exact Nat.lt_trans hgt (cAbove e he)
      have hval : c.2 = d.2 := by
        have := h c.1
        rwa [Memory.get_cons, if_pos rfl, Memory.get_cons, if_pos hkey] at this
      have htail : m = n := ih (Memory.wf_tail hm) (Memory.wf_tail hn) fun a => by
        have := h a
        rw [Memory.get_cons, Memory.get_cons, hkey] at this
        split at this
        · next ha =>
          rw [Memory.get_of_below fun e he => ha ▸ hkey ▸ cAbove e he,
            Memory.get_of_below fun e he => ha ▸ dAbove e he]
        · exact this
      rw [htail, Prod.ext hkey hval]

end Sys2Proof.Machine
end

