-- ==== Sys2Proof/Laws/Ops.lean ====
section
/-!
SUPPORT. What each shared operation can do, said once: the two register accessors, the two memory accessors, the stack
operations, and the commit of a step.
-/

namespace Sys2Proof.Machine

variable {s t : State} {k : FaultKind}

@[simp] theorem except_ok_bind {α β : Type} (v : α) (f : α → Except FaultKind β) :
    (Except.ok v >>= f) = f v := rfl

@[simp] theorem except_error_bind {α β : Type} (k : FaultKind) (f : α → Except FaultKind β) :
    (Except.error k >>= f) = .error k := rfl

/-- Peeling a computation apart: it answers only if both parts do. -/
theorem except_bind_eq_ok {α β : Type} {x : Except FaultKind α} {f : α → Except FaultKind β} {b : β} :
    (x >>= f) = .ok b ↔ ∃ a, x = .ok a ∧ f a = .ok b := by
  cases x <;> simp

/-- Peeling a computation apart: it raises what the first part raises, or the second after the first answers. -/
theorem except_bind_eq_error {α β : Type} {x : Except FaultKind α} {f : α → Except FaultKind β} {k : FaultKind} :
    (x >>= f) = .error k ↔ x = .error k ∨ ∃ a, x = .ok a ∧ f a = .error k := by
  cases x <;> simp

/-! Registers. -/

theorem State.sp_eq : s.sp = s.regs[7] := rfl

@[simp] theorem State.setReg_get (i j : Nat) (v : Byte) (hj : j < 8) :
    (s.setReg i v).regs[j] = if i = j then v else s.regs[j] := by
  simp [Vector.getElem_setIfInBounds]

@[simp] theorem State.sp_setReg_seven (v : Byte) : (s.setReg 7 v).sp = v := by simp [State.sp]

@[simp] theorem State.sp_setReg_other {i : Nat} (h : i ≠ 7) (v : Byte) : (s.setReg i v).sp = s.sp := by
  simp only [State.sp, State.setReg_get, if_neg h]

@[simp] theorem State.sp_setPc (n : Nat) : (s.setPc n).sp = s.sp := rfl

@[simp] theorem State.sp_advance (n : Nat) : (s.advance n).sp = s.sp := rfl

@[simp] theorem State.sp_setMem (a : Nat) (v : Byte) : (s.setMem a v).sp = s.sp := rfl

@[simp] theorem State.sp_decSp : s.decSp.sp = s.sp - 1#8 := State.sp_setReg_seven _

@[simp] theorem State.sp_incSp : s.incSp.sp = s.sp + 1#8 := State.sp_setReg_seven _

theorem readReg_of_lt {i : Nat} (h : i < 8) : readReg s i = .ok s.regs[i] := by
  unfold readReg
  rw [Vector.getElem?_eq_getElem h]

theorem readReg_of_ge {i : Nat} (h : 8 ≤ i) : readReg s i = .error (.regOob i) := by
  unfold readReg
  rw [Vector.getElem?_eq_none h]

/-- A register read answers the register's value, for a valid index only. -/
theorem readReg_eq_ok {i : Nat} {v : Byte} : readReg s i = .ok v ↔ ∃ h : i < 8, v = s.regs[i] := by
  by_cases h : i < 8
  · simp [readReg_of_lt h, h, eq_comm]
  · simp [readReg_of_ge (Nat.le_of_not_lt h), h]

/-- A register read raises REG_OOB, for an invalid index only. -/
theorem readReg_eq_error {i : Nat} : readReg s i = .error k ↔ 8 ≤ i ∧ k = .regOob i := by
  by_cases h : i < 8
  · simp [readReg_of_lt h, Nat.not_le.mpr h]
  · simp [readReg_of_ge (Nat.le_of_not_lt h), Nat.le_of_not_lt h, eq_comm]

/-- A register write replaces the register, for a valid index only. -/
theorem writeReg_eq_ok {i : Nat} {v : Byte} : writeReg s i v = .ok t ↔ i < 8 ∧ t = s.setReg i v := by
  unfold writeReg
  split <;> simp_all [eq_comm]

/-- A register write raises REG_OOB, for an invalid index only. -/
theorem writeReg_eq_error {i : Nat} {v : Byte} : writeReg s i v = .error k ↔ 8 ≤ i ∧ k = .regOob i := by
  unfold writeReg
  split
  · next h => simp only [reduceCtorEq, false_iff]; rintro ⟨h', -⟩; exact absurd h (Nat.not_lt.mpr h')
  · next h => simp [Nat.le_of_not_lt h, eq_comm]

/-- A register operand answers the register it names. -/
theorem readOperand_eq_ok {r v : Byte} : readOperand s r = .ok v ↔ ∃ h : r.toNat < 8, v = s.regs[r.toNat] :=
  readReg_eq_ok

/-- A register operand raises REG_OOB where it names no register. -/
theorem readOperand_eq_error {r : Byte} : readOperand s r = .error k ↔ 8 ≤ r.toNat ∧ k = .regOob r.toNat :=
  readReg_eq_error

theorem readOperand_of_lt {r : Byte} (h : r.toNat < 8) : readOperand s r = .ok s.regs[r.toNat] := readReg_of_lt h

theorem readOperand_of_ge {r : Byte} (h : 8 ≤ r.toNat) : readOperand s r = .error (.regOob r.toNat) := readReg_of_ge h

/-- Writing a register operand replaces the register it names. -/
theorem writeOperand_eq_ok {r v : Byte} : writeOperand s r v = .ok t ↔ r.toNat < 8 ∧ t = s.setReg r.toNat v :=
  writeReg_eq_ok

/-- Writing a register operand raises REG_OOB where it names no register. -/
theorem writeOperand_eq_error {r v : Byte} : writeOperand s r v = .error k ↔ 8 ≤ r.toNat ∧ k = .regOob r.toNat :=
  writeReg_eq_error

theorem writeOperand_of_lt {r : Byte} (h : r.toNat < 8) (v : Byte) :
    writeOperand s r v = .ok (s.setReg r.toNat v) := writeOperand_eq_ok.mpr ⟨h, rfl⟩

theorem writeOperand_of_ge {r : Byte} (h : 8 ≤ r.toNat) (v : Byte) :
    writeOperand s r v = .error (.regOob r.toNat) := writeOperand_eq_error.mpr ⟨h, rfl⟩

/-! Memory. -/

/-- A memory read answers the byte, for an address of memory only. -/
theorem memRead_eq_ok {a : Nat} {v : Byte} : memRead s a = .ok v ↔ a < memSize ∧ v = s.mem.get a := by
  unfold memRead
  split <;> simp_all [eq_comm]

/-- A memory read raises MEM_OOB, past memory only. -/
theorem memRead_eq_error {a : Nat} : memRead s a = .error k ↔ memSize ≤ a ∧ k = .memOob a := by
  unfold memRead
  split
  · next h => simp only [reduceCtorEq, false_iff]; rintro ⟨h', -⟩; exact absurd h (Nat.not_lt.mpr h')
  · next h => simp [Nat.le_of_not_lt h, eq_comm]

/-- A memory write replaces the byte, for an address of memory only. -/
theorem memWrite_eq_ok {a : Nat} {v : Byte} : memWrite s a v = .ok t ↔ a < memSize ∧ t = s.setMem a v := by
  unfold memWrite
  split <;> simp_all [eq_comm]

/-- A memory write raises MEM_OOB, past memory only. -/
theorem memWrite_eq_error {a : Nat} {v : Byte} : memWrite s a v = .error k ↔ memSize ≤ a ∧ k = .memOob a := by
  unfold memWrite
  split
  · next h => simp only [reduceCtorEq, false_iff]; rintro ⟨h', -⟩; exact absurd h (Nat.not_lt.mpr h')
  · next h => simp [Nat.le_of_not_lt h, eq_comm]

/-- A memory write keeps memory canonical. -/
theorem memWrite_mem_wf {a : Nat} {v : Byte} (hs : s.mem.wf) (h : memWrite s a v = .ok t) : t.mem.wf := by
  obtain ⟨ha, rfl⟩ := memWrite_eq_ok.mp h
  exact Memory.wf_set hs ha v

/-! The stack. -/

/-- A store at the top of the stack. -/
theorem storeTop_eq_ok {v : Byte} : storeTop s v = .ok t ↔ s.sp.toNat < memSize ∧ t = s.setMem s.sp.toNat v :=
  memWrite_eq_ok

theorem storeTop_eq_error {v : Byte} : storeTop s v = .error k ↔ memSize ≤ s.sp.toNat ∧ k = .memOob s.sp.toNat :=
  memWrite_eq_error

/-- A load from the top of the stack. -/
theorem loadTop_eq_ok {v : Byte} : loadTop s = .ok v ↔ s.sp.toNat < memSize ∧ v = s.mem.get s.sp.toNat :=
  memRead_eq_ok

theorem loadTop_eq_error : loadTop s = .error k ↔ memSize ≤ s.sp.toNat ∧ k = .memOob s.sp.toNat :=
  memRead_eq_error

/-- A push stores one byte at the decremented stack pointer. -/
theorem push_eq_ok {v : Byte} : push s v = .ok t ↔ pushAddr s < memSize ∧ t = s.decSp.setMem (pushAddr s) v :=
  memWrite_eq_ok

/-- A push keeps memory canonical. -/
theorem push_mem_wf {v : Byte} (hs : s.mem.wf) (h : push s v = .ok t) : t.mem.wf :=
  memWrite_mem_wf (s := s.decSp) hs h

theorem push_eq_error {v : Byte} : push s v = .error k ↔ memSize ≤ pushAddr s ∧ k = .memOob (pushAddr s) :=
  memWrite_eq_error

/-- A pop answers the byte at the stack pointer and increments it. -/
theorem pop_eq_ok {v : Byte} :
    pop s = .ok (v, t) ↔ s.sp.toNat < memSize ∧ v = s.mem.get s.sp.toNat ∧ t = s.incSp := by
  show (loadTop s >>= fun v => Except.ok (v, s.incSp)) = .ok (v, t) ↔ _
  rw [except_bind_eq_ok]
  constructor
  · rintro ⟨w, hw, he⟩
    obtain ⟨h, rfl⟩ := loadTop_eq_ok.mp hw
    cases he
    exact ⟨h, rfl, rfl⟩
  · rintro ⟨h, rfl, rfl⟩
    exact ⟨_, loadTop_eq_ok.mpr ⟨h, rfl⟩, rfl⟩

theorem pop_eq_error : pop s = .error k ↔ memSize ≤ s.sp.toNat ∧ k = .memOob s.sp.toNat := by
  show (loadTop s >>= fun v => Except.ok (v, s.incSp)) = .error k ↔ _
  rw [except_bind_eq_error, loadTop_eq_error]
  simp

/-! The commit of a step. -/

@[simp] theorem commit_ok : commit s (.ok t) = .next t := rfl

@[simp] theorem commit_error : commit s (.error k) = .next (s.takeFault k) := rfl

/-- What a committed step can be: the part's own answer, or the fault it raised, taken. -/
theorem commit_eq_next {r : Except FaultKind State} :
    commit s r = .next t ↔ r = .ok t ∨ ∃ k, r = .error k ∧ t = s.takeFault k := by
  cases r <;> simp [eq_comm]

end Sys2Proof.Machine
end

