-- ==== Sys2Proof/Laws/Handlers.lean ====
section
/-!
SUPPORT. What the shared parts of the handlers can do, said once: the ALU and its handler, and the jump.
-/

namespace Sys2Proof.Machine

variable {s t : State} {k : FaultKind} {a b : Byte}

/-- A successful ALU operation of two registers: both exist, and the kind says what is written. -/
theorem alu_eq_ok {kind : AluKind} : alu kind a b s = .ok t ↔ ∃ (ha : a.toNat < 8) (hb : b.toNat < 8),
    (kind = .add ∧ t = s.setReg a.toNat (aluSum s.regs[a.toNat] s.regs[b.toNat])) ∨
    (kind = .mul ∧ t = s.setReg a.toNat (aluProduct s.regs[a.toNat] s.regs[b.toNat])) ∨
    (kind = .cmp ∧ t = s.setFl (cmpFlags s.fl s.regs[a.toNat] s.regs[b.toNat])) := by
  by_cases ha : a.toNat < 8
  · by_cases hb : b.toNat < 8
    · cases kind <;>
        simp [alu, readOperand_of_lt ha, readOperand_of_lt hb, writeOperand_of_lt ha, ha, hb, eq_comm, pure, Except.pure,
          throw, throwThe, MonadExceptOf.throw]
    · cases kind <;>
        simp [alu, readOperand_of_lt ha, readOperand_of_ge (Nat.le_of_not_lt hb), hb, throw, throwThe, MonadExceptOf.throw]
  · cases kind <;>
      simp [alu, readOperand_of_ge (Nat.le_of_not_lt ha), ha, throw, throwThe, MonadExceptOf.throw]

/-- What the ALU raises: a kind it does not support, or an operand that names no register, `a` first. -/
theorem alu_eq_error {kind : AluKind} : alu kind a b s = .error k ↔
    (∃ tag, kind = .other tag ∧ k = .unsupportedAluOp kind) ∨
    ((∀ tag, kind ≠ .other tag) ∧
      ((8 ≤ a.toNat ∧ k = .regOob a.toNat) ∨ (a.toNat < 8 ∧ 8 ≤ b.toNat ∧ k = .regOob b.toNat))) := by
  by_cases ha : a.toNat < 8
  · by_cases hb : b.toNat < 8
    · cases kind <;>
        simp [alu, readOperand_of_lt ha, readOperand_of_lt hb, writeOperand_of_lt ha, ha, eq_comm, pure, Except.pure,
          throw, throwThe, MonadExceptOf.throw, Nat.not_le.mpr ha, Nat.not_le.mpr hb]
    · have hb' := Nat.le_of_not_lt hb
      cases kind <;>
        simp [alu, readOperand_of_lt ha, readOperand_of_ge hb', ha, hb', Nat.not_le.mpr ha, throw, throwThe,
          MonadExceptOf.throw, eq_comm]
  · have ha' := Nat.le_of_not_lt ha
    cases kind <;>
      simp [alu, readOperand_of_ge ha', ha, ha', throw, throwThe, MonadExceptOf.throw, eq_comm]

/-- An ALU handler that answers: what the ALU answers, PC advanced by 3. -/
theorem aluHandler_eq_ok {kind : AluKind} :
    aluHandler kind a b s = .ok t ↔ ∃ u, alu kind a b s = .ok u ∧ t = u.advance 3 := by
  unfold aluHandler
  rw [except_bind_eq_ok]
  simp [pure, Except.pure, eq_comm]

/-- An ALU handler raises what the ALU raises. -/
theorem aluHandler_eq_error {kind : AluKind} : aluHandler kind a b s = .error k ↔ alu kind a b s = .error k := by
  unfold aluHandler
  rw [except_bind_eq_error]
  simp [pure, Except.pure]

/-- A jump that answers: the register exists and PC is its value. -/
theorem jumpTo_eq_ok : jumpTo a s = .ok t ↔ ∃ h : a.toNat < 8, t = s.setPc s.regs[a.toNat].toNat := by
  unfold jumpTo
  rw [except_bind_eq_ok]
  constructor
  · rintro ⟨v, hv, he⟩
    obtain ⟨h, rfl⟩ := readOperand_eq_ok.mp hv
    cases he
    exact ⟨h, rfl⟩
  · rintro ⟨h, rfl⟩
    exact ⟨_, readOperand_of_lt h, rfl⟩

/-- A jump raises REG_OOB where its operand names no register. -/
theorem jumpTo_eq_error : jumpTo a s = .error k ↔ 8 ≤ a.toNat ∧ k = .regOob a.toNat := by
  unfold jumpTo
  rw [except_bind_eq_error, readOperand_eq_error]
  simp [pure, Except.pure]

end Sys2Proof.Machine
end

