-- ==== Sys2Proof/Laws/PerInstr.lean ====
section
/-!
SUPPORT. Families of lemmas with one lemma per constructor of Instr, about the instruction as syntax.
-/

namespace Sys2Proof.Laws

/-- The encoded form of an instruction (30_encoding.md R70, R71): it begins with its opcode byte, it is as long as its
format says, and that is 1, 2 or 3 bytes. -/
def EncodedForm.Statement (i : Instr) : Prop :=
  (encode i).head? = some i.mnemonic.opcode ∧ (encode i).length = i.mnemonic.length ∧
    1 ≤ (encode i).length ∧ (encode i).length ≤ 3

theorem EncodedForm.hlt : EncodedForm.Statement .hlt := ⟨rfl, rfl, by decide, by decide⟩
theorem EncodedForm.ldi (a b : Byte) : EncodedForm.Statement (.ldi a b) := ⟨rfl, rfl, by simp [encode, Instr.operands], by simp [encode, Instr.operands]⟩
theorem EncodedForm.prn (a : Byte) : EncodedForm.Statement (.prn a) := ⟨rfl, rfl, by simp [encode, Instr.operands], by simp [encode, Instr.operands]⟩
theorem EncodedForm.add (a b : Byte) : EncodedForm.Statement (.add a b) := ⟨rfl, rfl, by simp [encode, Instr.operands], by simp [encode, Instr.operands]⟩
theorem EncodedForm.mul (a b : Byte) : EncodedForm.Statement (.mul a b) := ⟨rfl, rfl, by simp [encode, Instr.operands], by simp [encode, Instr.operands]⟩
theorem EncodedForm.cmp (a b : Byte) : EncodedForm.Statement (.cmp a b) := ⟨rfl, rfl, by simp [encode, Instr.operands], by simp [encode, Instr.operands]⟩
theorem EncodedForm.push (a : Byte) : EncodedForm.Statement (.push a) := ⟨rfl, rfl, by simp [encode, Instr.operands], by simp [encode, Instr.operands]⟩
theorem EncodedForm.pop (a : Byte) : EncodedForm.Statement (.pop a) := ⟨rfl, rfl, by simp [encode, Instr.operands], by simp [encode, Instr.operands]⟩
theorem EncodedForm.call (a : Byte) : EncodedForm.Statement (.call a) := ⟨rfl, rfl, by simp [encode, Instr.operands], by simp [encode, Instr.operands]⟩
theorem EncodedForm.ret : EncodedForm.Statement .ret := ⟨rfl, rfl, by decide, by decide⟩
theorem EncodedForm.jmp (a : Byte) : EncodedForm.Statement (.jmp a) := ⟨rfl, rfl, by simp [encode, Instr.operands], by simp [encode, Instr.operands]⟩
theorem EncodedForm.jeq (a : Byte) : EncodedForm.Statement (.jeq a) := ⟨rfl, rfl, by simp [encode, Instr.operands], by simp [encode, Instr.operands]⟩
theorem EncodedForm.jne (a : Byte) : EncodedForm.Statement (.jne a) := ⟨rfl, rfl, by simp [encode, Instr.operands], by simp [encode, Instr.operands]⟩

end Sys2Proof.Laws
end

