-- ==== Sys2Proof/Laws/Step.lean ====
section
/-!
SUPPORT. What a fetch and a step can do, said once.
-/

namespace Sys2Proof.Machine

variable {s t : State} {k : FaultKind} {i : Instr}

/-- A fetch that answers: all three bytes are cells of memory. -/
theorem fetch_eq_ok {w : Byte × Byte × Byte} :
    fetch s = .ok w ↔ s.pc + 2 < memSize ∧ w = (s.mem.get s.pc, s.mem.get (s.pc + 1), s.mem.get (s.pc + 2)) := by
  unfold fetch memRead
  by_cases h0 : s.pc < memSize <;> by_cases h1 : s.pc + 1 < memSize <;> by_cases h2 : s.pc + 2 < memSize <;>
    simp only [h0, h1, h2, if_true, if_false, except_ok_bind, except_error_bind, pure, Except.pure, Except.ok.injEq,
      reduceCtorEq, true_and, false_and, eq_comm] <;> omega

/-- What a fetch raises: MEM_OOB with the first of PC, PC + 1, PC + 2 that is past memory. -/
theorem fetch_eq_error : fetch s = .error k ↔ memSize ≤ s.pc + 2 ∧ k = .memOob (max s.pc memSize) := by
  unfold fetch memRead
  by_cases h0 : s.pc < memSize
  · by_cases h1 : s.pc + 1 < memSize
    · by_cases h2 : s.pc + 2 < memSize
      · simp [h0, h1, h2, pure, Except.pure]
      · have : max s.pc memSize = s.pc + 2 := by omega
        simp only [h0, h1, h2, if_true, if_false, except_ok_bind, except_error_bind, Except.error.injEq, this]
        constructor
        · rintro rfl; exact ⟨by omega, rfl⟩
        · rintro ⟨-, rfl⟩; rfl
    · have : max s.pc memSize = s.pc + 1 := by omega
      simp only [h0, h1, if_true, if_false, except_ok_bind, except_error_bind, Except.error.injEq, this]
      constructor
      · rintro rfl; exact ⟨by omega, rfl⟩
      · rintro ⟨-, rfl⟩; rfl
  · have : max s.pc memSize = s.pc := by omega
    simp only [h0, if_false, except_error_bind, Except.error.injEq, this]
    constructor
    · rintro rfl; exact ⟨by omega, rfl⟩
    · rintro ⟨-, rfl⟩; rfl

/-- Fetch and decode answer an instruction: the window is in memory and decodes to it. -/
theorem fetchDecode_eq_ok : fetchDecode s = .ok i ↔ s.pc + 2 < memSize ∧
    decode (s.mem.get s.pc) (s.mem.get (s.pc + 1)) (s.mem.get (s.pc + 2)) = .ok i := by
  unfold fetchDecode
  rw [except_bind_eq_ok]
  constructor
  · rintro ⟨w, hw, he⟩
    obtain ⟨h, rfl⟩ := fetch_eq_ok.mp hw
    refine ⟨h, ?_⟩
    dsimp only at he
    split at he
    · next hd => cases he; exact hd
    · cases he
  · rintro ⟨h, hd⟩
    refine ⟨_, fetch_eq_ok.mpr ⟨h, rfl⟩, ?_⟩
    dsimp only
    rw [hd]
    rfl

/-- Fetch and decode raise MEM_OOB where the window leaves memory, UNKNOWN_OPCODE where the opcode is in no row. -/
theorem fetchDecode_eq_error : fetchDecode s = .error k ↔
    (memSize ≤ s.pc + 2 ∧ k = .memOob (max s.pc memSize)) ∨
    (s.pc + 2 < memSize ∧ (∀ m : Mnemonic, m.opcode ≠ s.mem.get s.pc) ∧ k = .unknownOpcode (s.mem.get s.pc)) := by
  unfold fetchDecode
  rw [except_bind_eq_error, fetch_eq_error]
  refine or_congr Iff.rfl ⟨?_, ?_⟩
  · rintro ⟨w, hw, he⟩
    obtain ⟨h, rfl⟩ := fetch_eq_ok.mp hw
    dsimp only at he
    split at he
    · cases he
    · next hd =>
      obtain ⟨hm, rfl⟩ := decode_eq_error.mp hd
      cases he
      exact ⟨h, hm, rfl⟩
  · rintro ⟨h, hm, rfl⟩
    refine ⟨_, fetch_eq_ok.mpr ⟨h, rfl⟩, ?_⟩
    dsimp only
    rw [decode_eq_error.mpr ⟨hm, rfl⟩]
    rfl

/-- A machine takes a step exactly when it is RUNNING: the decoded instruction's, or the fault of fetch and decode. -/
theorem step_eq_next : step s = .next t ↔ s.status = .running ∧
    ((∃ i, fetchDecode s = .ok i ∧ exec i s = .next t) ∨ ∃ k, fetchDecode s = .error k ∧ t = s.takeFault k) := by
  unfold step
  cases hs : s.status with
  | running => cases hf : fetchDecode s <;> simp [noStep, raiseFault, eq_comm]
  | halted => simp [noStep]
  | faulted r => simp [noStep]

/-- Memory at reset is canonical. -/
theorem reset_mem_wf : State.reset.mem.wf := Memory.wf_nil

/-- Storing bytes keeps memory canonical. -/
theorem storeBytes_mem_wf (vs : List Byte) {s : State} (h : s.mem.wf) (a : Nat) : (storeBytes s a vs).mem.wf := by
  induction vs generalizing s a with
  | nil => exact h
  | cons v vs ih =>
    rw [storeBytes]
    split
    · next ha => exact ih (Memory.wf_set h ha v) _
    · exact ih h _

/-- Loading an image keeps memory canonical, also where the load faults. -/
theorem loadImage_mem_wf (vs : List Byte) {s : State} (h : s.mem.wf) (a : Nat) : (loadImage s a vs).mem.wf := by
  induction vs generalizing s a with
  | nil => exact h
  | cons v vs ih =>
    rw [loadImage]
    cases hw : memWrite s a v with
    | error k => exact h
    | ok t => exact ih (memWrite_mem_wf h hw) _

@[simp] theorem State.isFaulted_takeFault : (s.takeFault k).isFaulted = true := rfl

end Sys2Proof.Machine
end

