-- ==== Sys2Proof/Laws/WellFormed.lean ====
section
/-!
SUPPORT. What the well-formedness check says.
-/

namespace Sys2Proof

/-- An operand byte is valid exactly when it is below 8. -/
theorem validReg_eq_true {r : Byte} : validReg r = true ↔ r.toNat < 8 := decide_eq_true_iff

/-- An instruction is well formed exactly when every byte it uses as a register index is below 8. -/
theorem Instr.wellFormed_eq_true {i : Instr} : i.wellFormed = true ↔ ∀ b ∈ i.registerOperands, b.toNat < 8 := by
  simp only [Instr.wellFormed, List.all_eq_true, validReg_eq_true]

end Sys2Proof
end

