-- ==== Sys2Proof/Tests/Slice0.lean ====
section
/-!
SUPPORT. Tests of the model. Expected results come from spec/95_test_vectors.md (the vector is named beside each test)
and from the encodings of 30_encoding.md. Then one witness for each statement that has hypotheses.
-/

namespace Sys2Proof.Tests

open Sys2Proof.Machine

/-! Well-formedness: each check refuses an ill-formed term. -/

theorem test_wellFormed_refuses_one_register :
    [Instr.ldi 8#8 1#8, .prn 200#8, .push 9#8, .pop 8#8, .call 9#8, .jmp 255#8, .jeq 9#8, .jne 9#8].all
      (fun i => !i.wellFormed) = true := by decide

theorem test_wellFormed_refuses_either_register :
    [Instr.add 8#8 0#8, .add 0#8 9#8, .mul 8#8 0#8, .mul 0#8 8#8, .cmp 8#8 7#8, .cmp 7#8 8#8].all
      (fun i => !i.wellFormed) = true := by decide

theorem test_wellFormed_accepts :
    [Instr.hlt, .ret, .ldi 7#8 255#8, .add 0#8 7#8, .prn 7#8].all (fun i => i.wellFormed) = true := by decide

/-! Decoding: one word of each row of the table (30_encoding.md R73), byte 0 least significant. -/

theorem test_decode_hlt : decodeTableWord 8 0x01 = some .hlt := by decide
theorem test_decode_ldi : decodeTableWord 24 0x080082 = some (.ldi 0#8 8#8) := by decide
theorem test_decode_prn : decodeTableWord 16 0x0047 = some (.prn 0#8) := by decide
theorem test_decode_add : decodeTableWord 24 0x0100A0 = some (.add 0#8 1#8) := by decide
theorem test_decode_mul : decodeTableWord 24 0x0100A2 = some (.mul 0#8 1#8) := by decide
theorem test_decode_cmp : decodeTableWord 24 0x0200A7 = some (.cmp 0#8 2#8) := by decide
theorem test_decode_push : decodeTableWord 16 0x0945 = some (.push 9#8) := by decide
theorem test_decode_pop : decodeTableWord 16 0x0146 = some (.pop 1#8) := by decide
theorem test_decode_call : decodeTableWord 16 0x0150 = some (.call 1#8) := by decide
theorem test_decode_ret : decodeTableWord 8 0x11 = some .ret := by decide
theorem test_decode_jmp : decodeTableWord 16 0x0354 = some (.jmp 3#8) := by decide
theorem test_decode_jeq : decodeTableWord 16 0x0355 = some (.jeq 3#8) := by decide
theorem test_decode_jne : decodeTableWord 16 0x0356 = some (.jne 3#8) := by decide

/-- Zero is no opcode (30_encoding.md R76). -/
theorem test_decode_zero : decodeTableWord 24 0 = none := by decide

/-- 243 of the 256 opcode bytes are illegal (30_encoding.md R76). -/
theorem test_decode_illegal_count : ((List.range 256).countP fun n => (lookupOpcode (narrow n)).isNone) = 243 := by
  decide +kernel

/-! One step of each instruction, on small states. -/

/-- The next state of an outcome, if there is one. -/
def nextOf : Host.Outcome State Fault Refusal → Option State
  | .next t => some t
  | _ => none

/-- The reset state with some registers, flags and PC, and bytes stored from PC on. -/
def start (regs : List (Nat × Byte)) (fl : Byte) (pc : Nat) (bytes : List Byte) : State :=
  storeBytes (regs.foldl (fun s r => s.setReg r.1 r.2) { State.reset with fl := fl, pc := pc }) pc bytes

/-- What one step from `start` leaves in the fields a test names. -/
def after {α : Type} (regs : List (Nat × Byte)) (fl : Byte) (pc : Nat) (bytes : List Byte) (view : State → α) : Option α :=
  (nextOf (step (start regs fl pc bytes))).map view

/-- STATUS of a fault of the given kind at the given PC. -/
def fault (k : FaultKind) (pc : Nat) : Status := .faulted { kind := k, pc := pc }

/-- V1. -/
theorem test_reset_faults_on_zero_memory :
    (nextOf (step State.reset)).map State.status = some (fault (.unknownOpcode 0#8) 0) := by decide

/-- V3: the operand fetch of a HLT at 253 leaves memory. -/
theorem test_fetch_at_253 : after [] 0#8 253 [0x01#8] State.status = some (fault (.memOob 255) 253) := by decide

/-- V10. -/
theorem test_ldi : after [] 0#8 0 [0x82#8, 0x00#8, 0x08#8] (fun t => (t.regs[0], t.pc)) = some (8#8, 3) := by decide

/-- V13. -/
theorem test_ldi_register_8 :
    after [] 0#8 0 [0x82#8, 0x08#8, 0x01#8] State.status = some (fault (.regOob 8) 0) := by decide

/-- V14. -/
theorem test_prn : after [(0, 72#8)] 0#8 0 [0x47#8, 0x00#8] (fun t => (t.out, t.pc)) = some ([72#8], 2) := by decide

/-- V15. -/
theorem test_prn_sp : after [] 0#8 0 [0x47#8, 0x07#8] State.out = some [244#8] := by decide

/-- V20. -/
theorem test_add_wraps : after [(0, 200#8), (1, 100#8)] 1#8 0 [0xA0#8, 0x00#8, 0x01#8]
    (fun t => (t.regs[0], t.regs[1], t.fl, t.pc)) = some (44#8, 100#8, 1#8, 3) := by decide

/-- V28: `a` is checked before `b`. -/
theorem test_add_checks_a_first :
    after [] 0#8 0 [0xA0#8, 0x08#8, 0x09#8] State.status = some (fault (.regOob 8) 0) := by decide

/-- V24. -/
theorem test_mul_squares_255 :
    after [(0, 255#8)] 0#8 0 [0xA2#8, 0x00#8, 0x00#8] (fun t => (t.regs[0], t.pc)) = some (1#8, 3) := by decide

/-- S3b. -/
theorem test_mul_wraps :
    after [(0, 12#8), (1, 25#8)] 0#8 0 [0xA2#8, 0x00#8, 0x01#8] (fun t => t.regs[0]) = some 44#8 := by decide

/-- V30. -/
theorem test_cmp_equal :
    after [(0, 3#8), (2, 3#8)] 0#8 0 [0xA7#8, 0x00#8, 0x02#8] (fun t => (t.fl, t.pc)) = some (1#8, 3) := by decide

/-- V32: set-only. -/
theorem test_cmp_never_clears :
    after [(0, 1#8), (2, 3#8)] 1#8 0 [0xA7#8, 0x00#8, 0x02#8] State.fl = some 1#8 := by decide

/-- V35. -/
theorem test_push : after [(0, 5#8)] 0#8 0 [0x45#8, 0x00#8] (fun t => (t.sp, t.mem.get 0xF3, t.pc)) =
    some (0xF3#8, 5#8, 2) := by decide

/-- V37: PUSH R7 pushes the decremented SP. -/
theorem test_push_r7 :
    after [] 0#8 0 [0x45#8, 0x07#8] (fun t => (t.sp, t.mem.get 0xF3)) = some (0xF3#8, 0xF3#8) := by decide

/-- V39d: a pop of the empty stack. -/
theorem test_pop_empty : after [(0, 9#8)] 0#8 0 [0x46#8, 0x00#8] (fun t => (t.regs[0], t.sp, t.pc)) =
    some (0#8, 0xF5#8, 2) := by decide

/-- V38, with the byte at 2: POP R7 of 0xFF leaves SP = 0. -/
theorem test_pop_r7_wraps : after [(7, 2#8)] 0#8 0 [0x46#8, 0x07#8, 0xFF#8] State.sp = some 0#8 := by decide

/-- V49. -/
theorem test_call : after [(1, 12#8)] 0#8 6 [0x50#8, 0x01#8] (fun t => (t.mem.get 0xF3, t.sp, t.pc)) =
    some (8#8, 0xF3#8, 12) := by decide

/-- V52: the push comes before the register read. -/
theorem test_call_checks_memory_first :
    after [(7, 0#8)] 0#8 0 [0x50#8, 0x09#8] State.status = some (fault (.memOob 255) 0) := by decide

/-- V53, with the return cell at 17. -/
theorem test_ret : after [(7, 17#8)] 0#8 15 [0x11#8, 0#8, 8#8] (fun t => (t.pc, t.sp)) = some (8, 18#8) := by decide

/-- V47. -/
theorem test_jmp : after [(3, 12#8)] 0#8 20 [0x54#8, 0x03#8] State.pc = some 12 := by decide

/-- V40. -/
theorem test_jeq_taken : after [(3, 30#8)] 1#8 18 [0x55#8, 0x03#8] State.pc = some 30 := by decide

/-- V44: not taken, the register is not read. -/
theorem test_jeq_not_taken : after [] 0#8 0 [0x55#8, 0x09#8] (fun t => (t.pc, t.status)) = some (2, .running) := by decide

/-- V42. -/
theorem test_jne_taken : after [(3, 12#8)] 0#8 18 [0x56#8, 0x03#8] State.pc = some 12 := by decide

/-- V43. -/
theorem test_jne_not_taken : after [(3, 12#8)] 1#8 18 [0x56#8, 0x03#8] State.pc = some 20 := by decide

/-- V55. -/
theorem test_hlt : after [] 0#8 11 [0x01#8] (fun t => (t.status, t.pc)) = some (.halted, 11) := by decide

/-- The host's placing of a table row: the very next step runs it. -/
theorem test_withFetchWord : nextOf (step (State.reset.withFetchWord 24 0xFF0682)) =
    nextOf (exec (.ldi 6#8 255#8) (State.reset.withFetchWord 24 0xFF0682)) := by decide

/-- LDI's immediate is no register index (60_exceptions.md R203). -/
theorem test_ldi_immediate_is_no_register : (Instr.ldi 0#8 255#8).registerOperands = [0#8] := by decide

/-- Loading a three-byte image (70_reset_and_hazards.md R233). -/
theorem test_boot : (boot [0x82#8, 0x00#8, 0x08#8]).mem = [(0, 0x82#8), (2, 0x08#8)] := by decide

/-- The fault codes of 60_exceptions.md R206. -/
theorem test_fault_codes : [FaultKind.unknownOpcode 0#8, .unsupportedAluOp (.other 0), .memOob 0, .regOob 0,
    .unwrittenReg 0].map FaultKind.code = [1, 2, 3, 4, 5] := by decide

/-! Witnesses: for each statement with hypotheses, a state and operands that meet all of them, and for each clause one at
a boundary of its range. -/

theorem witness_BootLoadsTheImage : (List.replicate 255 0x01#8).length ≤ 255 := by
  rw [List.length_replicate]

theorem witness_BootOfALongImageFaults : 255 < (List.replicate 256 0x01#8).length := by
  rw [List.length_replicate]; decide

theorem witness_StepRunsTheDecodedInstruction :
    (start [] 0#8 252 [0x82#8, 0x07#8, 0xFF#8]).status = .running ∧
    (start [] 0#8 252 [0x82#8, 0x07#8, 0xFF#8]).pc + 2 < 255 ∧
    decode ((start [] 0#8 252 [0x82#8, 0x07#8, 0xFF#8]).mem.get 252) ((start [] 0#8 252 [0x82#8, 0x07#8, 0xFF#8]).mem.get 253)
      ((start [] 0#8 252 [0x82#8, 0x07#8, 0xFF#8]).mem.get 254) = .ok (.ldi 7#8 255#8) := by decide

theorem witness_StepRunsTheEncodedInstruction :
    (start [] 0#8 252 [0x45#8, 0x07#8]).status = .running ∧ (start [] 0#8 252 [0x45#8, 0x07#8]).pc + 2 < 255 ∧
    ∀ (k : Nat) (h : k < (encode (.push 7#8)).length),
      (start [] 0#8 252 [0x45#8, 0x07#8]).mem.get (252 + k) = (encode (.push 7#8))[k] := by decide

theorem witness_UnknownOpcodeFaultsBeforeAnyMutation :
    State.reset.status = .running ∧ State.reset.pc + 2 < 255 ∧ ∀ m : Mnemonic, m.opcode ≠ State.reset.mem.get State.reset.pc :=
  ⟨rfl, by decide, fun m => by cases m <;> decide⟩

/-- The first clause at 253 and 255, the second at 256. -/
theorem witness_FetchPastMemoryFaults :
    [253, 255, 256].all (fun p => decide ((start [] 0#8 p []).status = .running ∧ 253 ≤ (start [] 0#8 p []).pc)) = true ∧
    (start [] 0#8 255 []).pc ≤ 255 ∧ 255 < (start [] 0#8 256 []).pc := by decide

theorem witness_NoStepAfterHlt :
    exec .hlt State.reset = .next (State.reset.setStatus .halted) ∧ (State.reset.setStatus .halted).status = .halted :=
  ⟨rfl, rfl⟩

theorem witness_StepExistsExactlyWhenRunning :
    State.reset.status = .running ∧ (State.reset.takeFault (.memOob 255)).status = fault (.memOob 255) 0 := by decide

/-- The register operands of the clauses of LDI, PRN and JMP at 7 and 8. -/
theorem witness_one_register_clauses : (7#8 : Byte).toNat < 8 ∧ 8 ≤ (8#8 : Byte).toNat := by decide

theorem witness_LdiLoadsTheImmediate : (7#8 : Byte).toNat < 8 ∧ 8 ≤ (8#8 : Byte).toNat := witness_one_register_clauses

theorem witness_PrnEmitsTheRegister : (7#8 : Byte).toNat < 8 ∧ 8 ≤ (8#8 : Byte).toNat ∧
    ∃ t, exec (.prn 8#8) State.reset = .next t := ⟨by decide, by decide, _, rfl⟩

theorem witness_JmpJumpsToTheRegister : (7#8 : Byte).toNat < 8 ∧ 8 ≤ (8#8 : Byte).toNat := witness_one_register_clauses

/-- Both operands valid at 7 and 0; `a` invalid at 8; `b` alone invalid at 8. -/
theorem witness_AddAddsModulo256 :
    ((7#8 : Byte).toNat < 8 ∧ (0#8 : Byte).toNat < 8) ∧ 8 ≤ (8#8 : Byte).toNat ∧
    ((7#8 : Byte).toNat < 8 ∧ 8 ≤ (8#8 : Byte).toNat) := by decide

theorem witness_MulMultipliesModulo256 :
    ((0#8 : Byte).toNat < 8 ∧ (7#8 : Byte).toNat < 8) ∧ 8 ≤ (255#8 : Byte).toNat ∧
    ((0#8 : Byte).toNat < 8 ∧ 8 ≤ (8#8 : Byte).toNat) := by decide

/-- Equal operands (R0, R1), different operands (R0, R7), and each invalid operand. -/
theorem witness_CmpSetsTheEqualFlag :
    ((0#8 : Byte).toNat < 8 ∧ (7#8 : Byte).toNat < 8) ∧ State.reset.regs[0] = State.reset.regs[1] ∧
    State.reset.regs[0] ≠ State.reset.regs[7] ∧ 8 ≤ (8#8 : Byte).toNat ∧
    ((7#8 : Byte).toNat < 8 ∧ 8 ≤ (8#8 : Byte).toNat) := by decide

/-- SP = 1 stores at address 0, SP = 255 at 254; SP = 0 faults. -/
theorem witness_PushStoresBelowTheStackPointer :
    ((7#8 : Byte).toNat < 8 ∧ (start [(7, 1#8)] 0#8 0 []).sp ≠ 0#8 ∧ (start [(7, 255#8)] 0#8 0 []).sp ≠ 0#8) ∧
    8 ≤ (8#8 : Byte).toNat ∧ ((0#8 : Byte).toNat < 8 ∧ (start [(7, 0#8)] 0#8 0 []).sp = 0#8) := by decide

/-- SP = 254 reads the last cell, with destinations 6 and 7; SP = 255 faults; an invalid destination. -/
theorem witness_PopLoadsFromTheStackPointer :
    ((6#8 : Byte).toNat < 8 ∧ (start [(7, 254#8)] 0#8 0 []).sp ≠ 255#8 ∧ (6#8 : Byte).toNat ≠ 7) ∧
    ((start [(7, 0#8)] 0#8 0 []).sp ≠ 255#8 ∧ (7#8 : Byte).toNat = 7) ∧ (start [(7, 255#8)] 0#8 0 []).sp = 255#8 ∧
    (8 ≤ (8#8 : Byte).toNat ∧ (start [(7, 254#8)] 0#8 0 []).sp ≠ 255#8) := by decide

/-- PC = 252 is the last CALL that is fetched. -/
theorem witness_CallPushesTheReturnAddress :
    (start [] 0#8 252 []).pc + 2 < 255 ∧ ((7#8 : Byte).toNat < 8 ∧ (start [(7, 1#8)] 0#8 252 []).sp ≠ 0#8) ∧
    (start [(7, 0#8)] 0#8 252 []).sp = 0#8 ∧ (8 ≤ (8#8 : Byte).toNat ∧ (start [(7, 255#8)] 0#8 252 []).sp ≠ 0#8) := by decide

theorem witness_RetPopsTheProgramCounter :
    (start [(7, 254#8)] 0#8 0 []).sp.toNat < 255 ∧ 255 ≤ (start [(7, 255#8)] 0#8 0 []).sp.toNat := by decide

theorem witness_JeqJumpsWhenEqual :
    ((7#8 : Byte).toNat < 8 ∧ (start [] 1#8 0 []).fl.getLsbD 0 = true) ∧ (start [] 0#8 0 []).fl.getLsbD 0 = false ∧
    (8 ≤ (8#8 : Byte).toNat ∧ (start [] 1#8 0 []).fl.getLsbD 0 = true) := by decide

theorem witness_JneJumpsWhenNotEqual :
    ((7#8 : Byte).toNat < 8 ∧ (start [] 0#8 0 []).fl.getLsbD 0 = false) ∧ (start [] 1#8 0 []).fl.getLsbD 0 = true ∧
    (8 ≤ (8#8 : Byte).toNat ∧ (start [] 0#8 0 []).fl.getLsbD 0 = false) := by decide

theorem witness_HltAndOnlyHltHalts : ∃ t, step (start [] 0#8 252 [0x01#8]) = .next t ∧ t.status = .halted :=
  ⟨_, rfl, rfl⟩

theorem witness_RegisterWritersFrame_ldi : ∃ t, exec (.ldi 7#8 5#8) State.reset = .next t ∧ t.isFaulted = false :=
  ⟨_, rfl, rfl⟩

theorem witness_RegisterWritersFrame_add : ∃ t, exec (.add 0#8 7#8) State.reset = .next t ∧ t.isFaulted = false :=
  ⟨_, rfl, rfl⟩

theorem witness_RegisterWritersFrame_mul : ∃ t, exec (.mul 7#8 7#8) State.reset = .next t ∧ t.isFaulted = false :=
  ⟨_, rfl, rfl⟩

theorem witness_CmpFrame : ∃ t, exec (.cmp 0#8 7#8) State.reset = .next t ∧ t.isFaulted = false := ⟨_, rfl, rfl⟩

theorem witness_PrnFrame : ∃ t, exec (.prn 7#8) State.reset = .next t ∧ t.isFaulted = false := ⟨_, rfl, rfl⟩

theorem witness_JumpFrame_jmp : ∃ t, exec (.jmp 7#8) State.reset = .next t ∧ t.isFaulted = false := ⟨_, rfl, rfl⟩

theorem witness_JumpFrame_jeq : ∃ t, exec (.jeq 8#8) State.reset = .next t ∧ t.isFaulted = false := ⟨_, rfl, rfl⟩

theorem witness_JumpFrame_jne : ∃ t, exec (.jne 7#8) State.reset = .next t ∧ t.isFaulted = false := ⟨_, rfl, rfl⟩

theorem witness_HltFrame : ∃ t, exec .hlt State.reset = .next t := ⟨_, rfl⟩

theorem witness_StackWritersFrame_push : ∃ t, exec (.push 7#8) State.reset = .next t ∧ t.isFaulted = false := ⟨_, rfl, rfl⟩

theorem witness_StackWritersFrame_call : ∃ t, exec (.call 7#8) State.reset = .next t ∧ t.isFaulted = false := ⟨_, rfl, rfl⟩

theorem witness_StackReadersFrame_pop : ∃ t, exec (.pop 7#8) State.reset = .next t ∧ t.isFaulted = false := ⟨_, rfl, rfl⟩

theorem witness_StackReadersFrame_ret : ∃ t, exec .ret State.reset = .next t ∧ t.isFaulted = false := ⟨_, rfl, rfl⟩

/-- A state with bytes in memory at the last PC a step runs from. -/
theorem witness_StepKeepsTheInvariant :
    (start [] 1#8 252 [0xA7#8, 0x00#8, 0x07#8]).Inv ∧ ∃ t, step (start [] 1#8 252 [0xA7#8, 0x00#8, 0x07#8]) = .next t :=
  ⟨⟨by decide, by decide, by decide⟩, _, rfl⟩

theorem witness_EachHandlerMovesThePc :
    (∃ t, exec (.jeq 8#8) State.reset = .next t ∧ t.isFaulted = false) ∧
    (start [] 0#8 252 [0x01#8]).status = .running ∧ fetchDecode (start [] 0#8 252 [0x01#8]) = .ok .hlt :=
  ⟨⟨_, rfl, rfl⟩, rfl, rfl⟩

theorem witness_EqualFlagIsSticky : ∃ t, exec (.cmp 0#8 1#8) State.reset = .next t ∧ t.isFaulted = false := ⟨_, rfl, rfl⟩

/-- A PUSH of R7 from reset changes the byte at 0xF3. -/
theorem witness_MemoryChangesOnlyByPushAndCall : ∃ t, step (start [] 0#8 0 [0x45#8, 0x07#8]) = .next t ∧
    t.isFaulted = false ∧ t.mem.get 0xF3 ≠ (start [] 0#8 0 [0x45#8, 0x07#8]).mem.get 0xF3 := ⟨_, rfl, rfl, by decide⟩

/-- A PRN that completes and one that faults. -/
theorem witness_OutputOnlyGrowsByPrnAndIsNeverRead :
    (∃ t, exec (.prn 7#8) State.reset = .next t ∧ t.isFaulted = false) ∧
    ∃ t, exec (.prn 8#8) State.reset = .next t ∧ t.isFaulted = true := ⟨⟨_, rfl, rfl⟩, _, rfl, rfl⟩

theorem witness_MemoryAccessorsKeepTheirContract : State.reset.mem.wf ∧ 254 < 255 ∧ 255 ≤ 255 := by decide

/-- A write to the last cell, and memory that lists a byte. -/
theorem witness_MemoryOperationsKeepTheCanonicalForm : (start [] 0#8 254 [1#8]).mem.wf ∧
    ∃ t, memWrite (start [] 0#8 254 [1#8]) 254 0#8 = .ok t := ⟨by decide, _, rfl⟩

theorem witness_AluReadsOnlyRegistersAndFlags : ∃ t, State.reset.regs = (State.reset.setPc 9).regs ∧
    State.reset.fl = (State.reset.setPc 9).fl ∧ alu .add 0#8 7#8 State.reset = .ok t := ⟨_, rfl, rfl, rfl⟩

theorem witness_AddAndMulLaws : (7#8 : Byte).toNat < 8 ∧ (0#8 : Byte).toNat < 8 ∧ (0#8 : Byte) ≠ 7#8 := by decide

theorem witness_PushThenPopRoundTrips : (6#8 : Byte).toNat < 7 ∧ (0#8 : Byte).toNat < 7 ∧
    (start [(7, 1#8)] 0#8 0 []).mem.wf ∧ (start [(7, 1#8)] 0#8 0 []).sp ≠ 0#8 := by decide

/-- The state at the RET may be CALL's own next state. -/
theorem witness_CallThenRetReturns : (7#8 : Byte).toNat < 8 ∧ (start [(7, 1#8)] 0#8 252 []).mem.wf ∧
    (start [(7, 1#8)] 0#8 252 []).pc + 2 < 255 ∧ (start [(7, 1#8)] 0#8 252 []).sp ≠ 0#8 := by decide

/-- PUSH: each of the three places the pushed byte may stand, PC + 2, PC + 3 and PC + 4, for R6 and R7. -/
theorem witness_FetchSeesThePushedByte_push : (6#8 : Byte).toNat < 8 ∧ (7#8 : Byte).toNat < 8 ∧
    [3#8, 4#8, 5#8].all (fun sp => decide ((start [(7, sp)] 0#8 0 []).mem.wf ∧ (start [(7, sp)] 0#8 0 []).sp ≠ 0#8 ∧
      (start [(7, sp)] 0#8 0 []).pc + 4 < 255)) = true ∧
    pushAddr (start [(7, 3#8)] 0#8 0 []) = 2 ∧ pushAddr (start [(7, 4#8)] 0#8 0 []) = 3 ∧
    pushAddr (start [(7, 5#8)] 0#8 0 []) = 4 := by decide

/-- CALL R0 from PC = 252 with target 100 and the return byte at 100, 101 and 102; CALL R7 with target 252, the last that
is fetched. -/
theorem witness_FetchSeesThePushedByte_call : (0#8 : Byte).toNat < 8 ∧
    [101#8, 102#8, 103#8].all (fun sp => decide ((start [(0, 100#8), (7, sp)] 0#8 252 []).mem.wf ∧
      (start [(0, 100#8), (7, sp)] 0#8 252 []).sp ≠ 0#8 ∧ (start [(0, 100#8), (7, sp)] 0#8 252 []).pc + 2 < 255 ∧
      (start [(0, 100#8), (7, sp)] 0#8 252 []).regs[0] = 100#8)) = true ∧ 100 + 2 < 255 ∧
    pushAddr (start [(0, 100#8), (7, 101#8)] 0#8 252 []) = 100 ∧ pushAddr (start [(0, 100#8), (7, 102#8)] 0#8 252 []) = 101 ∧
    pushAddr (start [(0, 100#8), (7, 103#8)] 0#8 252 []) = 102 ∧
    (7#8 : Byte).toNat < 8 ∧ ((start [(7, 253#8)] 0#8 252 []).sp - 1#8).toNat + 2 < 255 := by decide

theorem witness_EveryFaultHasItsCause : ∃ t, step (start [] 0#8 253 []) = .next t ∧
    t.status = fault (.memOob 255) 253 := ⟨_, rfl, rfl⟩

/-- A PUSH with SP = 0, a POP with SP = 255, an operand byte 8, an opcode byte in no row. -/
theorem witness_EveryFaultHasItsCause_clauses :
    after [(7, 0#8)] 0#8 0 [0x45#8, 0x00#8] State.status = some (fault (.memOob 255) 0) ∧
    after [(7, 255#8)] 0#8 0 [0x46#8, 0x00#8] State.status = some (fault (.memOob 255) 0) ∧
    after [] 0#8 0 [0x54#8, 0x08#8] State.status = some (fault (.regOob 8) 0) ∧
    after [] 0#8 0 [0xFF#8] State.status = some (fault (.unknownOpcode 0xFF#8) 0) := by decide

theorem witness_UnsupportedAluOpIsGuardedAndUnreachable :
    AluKind.other 0 ≠ .add ∧ AluKind.other 0 ≠ .mul ∧ AluKind.other 0 ≠ .cmp ∧
    alu (.other 0) 0#8 0#8 State.reset = .error (.unsupportedAluOp (.other 0)) ∧
    ∃ t, step State.reset = .next t ∧ t.status = fault (.unknownOpcode 0#8) 0 :=
  ⟨by decide, by decide, by decide, rfl, _, rfl, rfl⟩

/-- A well-formed PUSH that faults, with SP = 0. -/
theorem witness_WellFormedInstructionsRaiseNoRegOob :
    (Instr.push 7#8).wellFormed = true ∧ (start [(7, 0#8)] 0#8 0 []).status = .running ∧
    ∃ t, exec (.push 7#8) (start [(7, 0#8)] 0#8 0 []) = .next t ∧ t.status = fault (.memOob 255) 0 :=
  ⟨by decide, rfl, _, rfl, rfl⟩

/-- PUSH R7 with SP = 1 at PC = 252, and RET with SP = 254. -/
theorem witness_StepsAwayFromTheEdgesAreSafe :
    ((start [(7, 1#8)] 0#8 252 [0x45#8, 0x07#8]).status = .running ∧
      fetchDecode (start [(7, 1#8)] 0#8 252 [0x45#8, 0x07#8]) = .ok (.push 7#8) ∧ (Instr.push 7#8).wellFormed = true ∧
      (start [(7, 1#8)] 0#8 252 [0x45#8, 0x07#8]).sp ≠ 0#8) ∧
    fetchDecode (start [(7, 254#8)] 0#8 0 [0x11#8]) = .ok .ret ∧ Instr.ret.wellFormed = true ∧
      (start [(7, 254#8)] 0#8 0 [0x11#8]).sp ≠ 255#8 :=
  ⟨⟨rfl, rfl, by decide, by decide⟩, rfl, by decide, by decide⟩

theorem witness_RunsEndOnlyThroughHlt : (start [] 0#8 252 [0x01#8]).status = .running ∧
    ∃ t, EndsIn (start [] 0#8 252 [0x01#8]) t := ⟨rfl, _, rfl, 1, rfl⟩

theorem witness_FaultEntryCommitsNothing : (∃ t, step State.reset = .next t ∧ t.isFaulted = true) ∧
    State.reset.isFaulted = false ∧ ∃ t, exec (.jmp 8#8) State.reset = .next t ∧ t.isFaulted = true :=
  ⟨⟨_, rfl, rfl⟩, rfl, _, rfl, rfl⟩

/-- The bytes at 254 (present) and 255 (absent). -/
theorem witness_TraceShowsPcBytesAndRegisters :
    (1 < 3 ∧ (start [] 0#8 253 []).pc + 1 < 255) ∧ (2 < 3 ∧ ¬ (start [] 0#8 253 []).pc + 2 < 255) := by decide

end Sys2Proof.Tests
end

/-!
SUPPORT. OUT is write-only (10_state.md R38): with another output history every operation answers the same, the
history carried along. One lemma per operation, then `exec_withOut` for the handlers, from which O38 follows.
-/

namespace Sys2Proof.Machine

variable {s t : State} {i : Instr}

/-- The state with another output history. -/
def State.withOut (s : State) (o : List Byte) : State := { s with out := o }

@[simp] theorem State.withOut_self (s : State) : s.withOut s.out = s := rfl
@[simp] theorem State.withOut_fl (s : State) (o : List Byte) : (s.withOut o).fl = s.fl := rfl
@[simp] theorem State.withOut_sp (s : State) (o : List Byte) : (s.withOut o).sp = s.sp := rfl
@[simp] theorem State.withOut_decSp (s : State) (o : List Byte) : (s.withOut o).decSp = s.decSp.withOut o := rfl

/-- The bytes an instruction that completes appends to OUT: PRN's register (41_data_output.md R121), else nothing. -/
def emitted : Instr → State → List Byte
  | .prn a, s => s.regs[a.toNat]?.toList
  | _, _ => []

theorem emitted_eq_nil_or_prn (i : Instr) (s : State) :
    emitted i s = [] ∨ ∃ (a : Byte) (_ : a.toNat < 8), i = .prn a ∧ emitted i s = [s.regs[a.toNat]] := by
  cases i with
  | prn a =>
    by_cases ha : a.toNat < 8
    · exact .inr ⟨a, ha, rfl, by simp [emitted, ha]⟩
    · exact .inl (by simp [emitted, ha])
  | _ => exact .inl rfl

/-- To carry an output history through a computation, carry it through the computation's second part. -/
theorem map_withOut_bind {o : List Byte} {x : Except FaultKind State} {f : State → Except FaultKind State}
    (h : ∀ t, f (t.withOut o) = (f t).map (·.withOut o)) :
    (x.map (·.withOut o) >>= f) = (x >>= f).map (·.withOut o) := by
  cases x with
  | error k => rfl
  | ok t => exact h t

/-! The operations under another output history: a read answers the same, an update carries the history along. -/

theorem returnAddr_withOut (o : List Byte) : returnAddr (s.withOut o) = returnAddr s := rfl

theorem readOperand_withOut (o : List Byte) (r : Byte) : readOperand (s.withOut o) r = readOperand s r := rfl

theorem loadTop_withOut (o : List Byte) : loadTop (s.withOut o) = loadTop s := rfl

theorem writeOperand_withOut (o : List Byte) (r v : Byte) :
    writeOperand (s.withOut o) r v = (writeOperand s r v).map (·.withOut o) := by
  unfold writeOperand writeReg
  split <;> rfl

theorem storeTop_withOut (o : List Byte) (v : Byte) :
    storeTop (s.withOut o) v = (storeTop s v).map (·.withOut o) := by
  unfold storeTop memWrite
  rw [State.withOut_sp]
  split <;> rfl

theorem push_withOut (o : List Byte) (v : Byte) : push (s.withOut o) v = (push s v).map (·.withOut o) :=
  storeTop_withOut (s := s.decSp) o v

theorem jumpTo_withOut (o : List Byte) (a : Byte) : jumpTo a (s.withOut o) = (jumpTo a s).map (·.withOut o) := by
  unfold jumpTo
  rw [readOperand_withOut]
  cases readOperand s a <;> rfl

theorem alu_withOut (o : List Byte) (kind : AluKind) (a b : Byte) :
    alu kind a b (s.withOut o) = (alu kind a b s).map (·.withOut o) := by
  cases kind with
  | other tag => rfl
  | _ =>
    simp only [alu, readOperand_withOut, writeOperand_withOut]
    cases readOperand s a <;> cases readOperand s b <;> rfl

theorem aluHandler_withOut (o : List Byte) (kind : AluKind) (a b : Byte) :
    aluHandler kind a b (s.withOut o) = (aluHandler kind a b s).map (·.withOut o) := by
  unfold aluHandler
  rw [alu_withOut]
  exact map_withOut_bind fun _ => rfl

/-- Every handler commits an answer that is the same under any output history `o`, up to `o` itself, to whose end the
emitted bytes are appended. -/
theorem exec_withOut (i : Instr) (s : State) : ∃ r : Except FaultKind State, exec i s = commit s r ∧
    ∀ o, exec i (s.withOut o) = commit (s.withOut o) (r.map (·.withOut (o ++ emitted i s))) := by
  cases i <;> simp only [exec, execHlt, execLdi, execPrn, execAdd, execMul, execCmp, execPush, execPop, execCall,
    execRet, execJmp, execJeq, execJne, emitted, List.append_nil] <;>
    refine ⟨_, rfl, fun o => congrArg (commit _) ?_⟩
  case hlt => rfl
  case ldi a b =>
    rw [writeOperand_withOut]
    exact map_withOut_bind fun _ => rfl
  case prn a =>
    by_cases ha : a.toNat < 8
    · rw [readOperand_withOut, readOperand_of_lt ha, Vector.getElem?_eq_getElem ha]; rfl
    · rw [readOperand_withOut, readOperand_of_ge (Nat.le_of_not_lt ha)]; rfl
  case add a b => exact aluHandler_withOut ..
  case mul a b => exact aluHandler_withOut ..
  case cmp a b => exact aluHandler_withOut ..
  case push a =>
    simp only [State.withOut_decSp, readOperand_withOut, storeTop_withOut]
    cases readOperand s.decSp a with
    | error k => rfl
    | ok v => exact map_withOut_bind fun _ => rfl
  case pop a =>
    simp only [loadTop_withOut, writeOperand_withOut]
    cases loadTop s with
    | error k => rfl
    | ok v => exact map_withOut_bind fun _ => rfl
  case call a =>
    rw [returnAddr_withOut, push_withOut]
    exact map_withOut_bind fun t => jumpTo_withOut ..
  case ret =>
    simp only [pop, loadTop_withOut]
    cases loadTop s <;> rfl
  case jmp a => exact jumpTo_withOut ..
  case jeq a =>
    rw [State.withOut_fl]
    split
    · exact jumpTo_withOut ..
    · rfl
  case jne a =>
    rw [State.withOut_fl]
    split
    · rfl
    · exact jumpTo_withOut ..

/-- The two ways an instruction ends: it commits its writes, the emitted bytes among them, or it takes a fault; each
the same way under any other output history. -/
theorem exec_next_withOut (h : exec i s = .next t) :
    (t.out = s.out ++ emitted i s ∧ ∀ o, exec i (s.withOut o) = .next (t.withOut (o ++ emitted i s))) ∨
    ∃ k, t = s.takeFault k ∧ ∀ o, exec i (s.withOut o) = .next ((s.withOut o).takeFault k) := by
  obtain ⟨r, hr, hr'⟩ := exec_withOut i s
  obtain rfl | ⟨k, rfl, rfl⟩ := commit_eq_next.mp (hr ▸ h)
  · have ht : t = t.withOut (s.out ++ emitted i s) := by simpa [h, Except.map] using hr' s.out
    exact .inl ⟨congrArg State.out ht, hr'⟩
  · exact .inr ⟨k, rfl, hr'⟩

/-- Settles O38, from `exec_next_withOut`: the bytes an instruction appends do not depend on the output history. -/
theorem outputOnlyGrowsByPrnAndIsNeverRead : Obligations.OutputOnlyGrowsByPrnAndIsNeverRead := by
  refine ⟨rfl, fun i s t h hf => ?_, fun i s t o h => ?_⟩
  · obtain ⟨hout, -⟩ | ⟨k, rfl, -⟩ := exec_next_withOut h
    · obtain hw | ⟨a, ha, hi, hw⟩ := emitted_eq_nil_or_prn i s
      · exact .inl (by simp [hout, hw])
      · exact .inr ⟨a, ha, hi, by rw [hout, hw]⟩
    · simp at hf
  · obtain ⟨hout, ho⟩ | ⟨k, rfl, ho⟩ := exec_next_withOut h
    · exact ⟨_, ho o, rfl, fun _ => ⟨_, hout, rfl⟩⟩
    · exact ⟨_, ho o, rfl, fun hf => by simp at hf⟩

end Sys2Proof.Machine

namespace Sys2Proof.Machine

/-- Settles O39: the two accessors' characterisations on either side of `memSize`, and `Memory.get_set` for what a later
read answers. -/
theorem memoryAccessorsKeepTheirContract : Obligations.MemoryAccessorsKeepTheirContract := by
  intro s a v hwf
  refine ⟨fun hin => ⟨memRead_eq_ok.mpr ⟨hin, rfl⟩, s.mem.set a v, ?written, ?readBack⟩, fun hout => ⟨?_, ?_⟩⟩
  case written => exact memWrite_eq_ok.mpr ⟨hin, rfl⟩
  case readBack => exact Memory.get_set hwf a v
  · exact memRead_eq_error.mpr ⟨hout, rfl⟩
  · exact memWrite_eq_error.mpr ⟨hout, rfl⟩

end Sys2Proof.Machine

namespace Sys2Proof.Machine

/-- Settles O10: fetch and decode raise UNKNOWN_OPCODE, and a step whose decode raises a fault only takes it. -/
theorem unknownOpcodeFaultsBeforeAnyMutation : Obligations.UnknownOpcodeFaultsBeforeAnyMutation := by
  intro s hrun hwindow hop
  have hdecode : fetchDecode s = .error (.unknownOpcode (s.mem.get s.pc)) :=
    fetchDecode_eq_error.mpr (.inr ⟨hwindow, hop, rfl⟩)
  exact ⟨_, rfl, step_eq_next.mpr ⟨hrun, .inr ⟨_, hdecode, rfl⟩⟩⟩

end Sys2Proof.Machine

/-!
SUPPORT. LDI and PRN on either side of the register bound (41_data_output.md R120, R121): an equation per case, for the
handler's next state, and what taking a fault shows.
-/

namespace Sys2Proof.Machine

variable {s : State} {a : Byte}

/-- A step that ends in fault entry takes that fault. -/
theorem takesFault_takeFault (s : State) (k : FaultKind) : TakesFault (.next (s.takeFault k)) k :=
  ⟨_, _, rfl, State.takeFault_status s k, rfl⟩

/-- For an index that names a register the total update `setReg` is the bounded `Vector.set`. -/
theorem State.setReg_of_lt {i : Nat} (h : i < 8) (v : Byte) : s.setReg i v = { s with regs := s.regs.set i v h } := by
  simp [State.setReg, Vector.setIfInBounds, Vector.set, Array.setIfInBounds, h]

theorem exec_ldi_of_lt (h : a.toNat < 8) (b : Byte) :
    exec (.ldi a b) s = .next ((s.setReg a.toNat b).advance 3) := by
  simp only [exec, execLdi, writeOperand_of_lt h]
  rfl

theorem exec_ldi_of_ge (h : 8 ≤ a.toNat) (b : Byte) :
    exec (.ldi a b) s = .next (s.takeFault (.regOob a.toNat)) := by
  simp only [exec, execLdi, writeOperand_of_ge h, except_error_bind, commit_error]

theorem exec_prn_of_lt (h : a.toNat < 8) :
    exec (.prn a) s = .next ((s.emit s.regs[a.toNat]).advance 2) := by
  simp only [exec, execPrn, readOperand_of_lt h]
  rfl

theorem exec_prn_of_ge (h : 8 ≤ a.toNat) : exec (.prn a) s = .next (s.takeFault (.regOob a.toNat)) := by
  simp only [exec, execPrn, readOperand_of_ge h, except_error_bind, commit_error]

/-- Settles O14: the immediate is written where the operand names a register, and the write raises where it does not. -/
theorem ldiLoadsTheImmediate : Obligations.LdiLoadsTheImmediate := by
  intro s a b
  refine ⟨fun h => ?loads, fun h => ?faults⟩
  case loads =>
    rw [exec_ldi_of_lt h, State.setReg_of_lt h]
    rfl
  case faults =>
    rw [exec_ldi_of_ge h]
    exact takesFault_takeFault s _

/-- Settles O15: the read comes before `Emit`, so a PRN whose read raises leaves OUT as fault entry does. -/
theorem prnEmitsTheRegister : Obligations.PrnEmitsTheRegister := by
  intro s a
  refine ⟨fun h => exec_prn_of_lt h, fun h => ?faults⟩
  case faults =>
    rw [exec_prn_of_ge h]
    refine ⟨takesFault_takeFault s _, ?_⟩
    rintro t ⟨⟩
    exact State.takeFault_out s _

end Sys2Proof.Machine

/-!
SUPPORT. Control transfer and halt (44_control.md R171, R182, R191): an equation per case for JMP on either side of the
register bound, for RET on either side of the end of memory, for HLT, and for the step of a HALTED machine.
-/

namespace Sys2Proof.Machine

variable {s : State} {a : Byte}

theorem exec_hlt : exec .hlt s = .next (s.setStatus .halted) := rfl

theorem exec_jmp_of_lt (h : a.toNat < 8) : exec (.jmp a) s = .next (s.setPc s.regs[a.toNat].toNat) := by
  simp only [exec, execJmp, jumpTo_eq_ok.mpr ⟨h, rfl⟩, commit_ok]

theorem exec_jmp_of_ge (h : 8 ≤ a.toNat) : exec (.jmp a) s = .next (s.takeFault (.regOob a.toNat)) := by
  simp only [exec, execJmp, jumpTo_eq_error.mpr ⟨h, rfl⟩, commit_error]

theorem exec_ret_of_lt (h : s.sp.toNat < memSize) :
    exec .ret s = .next (s.incSp.setPc (s.mem.get s.sp.toNat).toNat) := by
  simp only [exec, execRet, pop_eq_ok.mpr ⟨h, rfl, rfl⟩]
  rfl

theorem exec_ret_of_ge (h : memSize ≤ s.sp.toNat) : exec .ret s = .next (s.takeFault (.memOob s.sp.toNat)) := by
  simp only [exec, execRet, pop_eq_error.mpr ⟨h, rfl⟩, except_error_bind, commit_error]

theorem step_of_halted (h : s.status = .halted) : step s = .fault .halted := by
  simp only [step, h, noStep]

/-- Settles O12: HLT leaves the machine HALTED, and the step of a HALTED machine answers no next state. -/
theorem noStepAfterHlt : Obligations.NoStepAfterHlt := by
  refine ⟨fun s t u hexec => ?afterHlt, fun s => step_of_halted⟩
  obtain rfl : s.setStatus .halted = t := by simpa only [exec_hlt, Host.Outcome.next.injEq] using hexec
  rw [step_of_halted (State.setStatus_status (s := s) .halted)]
  exact nofun

/-- Settles O22: the pop answers inside memory and raises past it; SP is `R[7]`, so its update is the register's. -/
theorem retPopsTheProgramCounter : Obligations.RetPopsTheProgramCounter := by
  intro s
  refine ⟨fun h => ?returns, fun h => ?faults⟩
  case returns =>
    rw [exec_ret_of_lt h, State.incSp, State.setReg_of_lt (by decide)]
    rfl
  case faults =>
    rw [exec_ret_of_ge h]
    exact takesFault_takeFault s _

/-- Settles O23: the jump's read answers where the operand names a register, and raises where it does not. -/
theorem jmpJumpsToTheRegister : Obligations.JmpJumpsToTheRegister := by
  intro s a
  refine ⟨fun h => exec_jmp_of_lt h, fun h => ?faults⟩
  rw [exec_jmp_of_ge h]
  exact takesFault_takeFault s _

end Sys2Proof.Machine

/-!
SUPPORT. Which faults a handler can raise (60_exceptions.md R202 to R204): only those of the register and memory
accessors, for no instruction gives the ALU a kind it does not support. One rule per operation, composed with
`OnlyAccessFaults.bind`; then `exec_next_status` says how a handler leaves STATUS.
-/

namespace Sys2Proof.Machine

variable {s t : State} {k : FaultKind} {i : Instr}

/-- The faults of the accessors: MEM_OOB of a memory access, REG_OOB of a register access. -/
def FaultKind.IsAccess (k : FaultKind) : Prop := ∃ n, k = .memOob n ∨ k = .regOob n

theorem FaultKind.isAccess_memOob (n : Nat) : (FaultKind.memOob n).IsAccess := ⟨n, .inl rfl⟩

theorem FaultKind.isAccess_regOob (n : Nat) : (FaultKind.regOob n).IsAccess := ⟨n, .inr rfl⟩

theorem FaultKind.IsAccess.ne_unsupportedAluOp (h : k.IsAccess) (kind : AluKind) : k ≠ .unsupportedAluOp kind := by
  rintro rfl
  obtain ⟨n, h | h⟩ := h <;> cases h

/-- The computation raises faults of the accessors only, and an answer of it meets `P`. -/
def OnlyAccessFaults {α : Type} (P : α → Prop) : Except FaultKind α → Prop
  | .ok v => P v
  | .error k => k.IsAccess

theorem OnlyAccessFaults.bind {α β : Type} {P : α → Prop} {Q : β → Prop} {x : Except FaultKind α}
    {f : α → Except FaultKind β} (hx : OnlyAccessFaults P x) (hf : ∀ v, P v → OnlyAccessFaults Q (f v)) :
    OnlyAccessFaults Q (x >>= f) := by
  cases x with
  | ok v => exact hf v hx
  | error k => exact hx

/-! The operations: an access raises its own fault, an update keeps STATUS. -/

theorem readOperand_onlyAccessFaults (s : State) (r : Byte) :
    OnlyAccessFaults (fun _ => True) (readOperand s r) := by
  cases h : readOperand s r with
  | ok v => trivial
  | error k => obtain ⟨-, rfl⟩ := readOperand_eq_error.mp h; exact FaultKind.isAccess_regOob _

theorem loadTop_onlyAccessFaults (s : State) : OnlyAccessFaults (fun _ => True) (loadTop s) := by
  cases h : loadTop s with
  | ok v => trivial
  | error k => obtain ⟨-, rfl⟩ := loadTop_eq_error.mp h; exact FaultKind.isAccess_memOob _

theorem writeOperand_onlyAccessFaults (s : State) (r v : Byte) :
    OnlyAccessFaults (·.status = s.status) (writeOperand s r v) := by
  cases h : writeOperand s r v with
  | ok t => obtain ⟨-, rfl⟩ := writeOperand_eq_ok.mp h; rfl
  | error k => obtain ⟨-, rfl⟩ := writeOperand_eq_error.mp h; exact FaultKind.isAccess_regOob _

theorem storeTop_onlyAccessFaults (s : State) (v : Byte) :
    OnlyAccessFaults (·.status = s.status) (storeTop s v) := by
  cases h : storeTop s v with
  | ok t => obtain ⟨-, rfl⟩ := storeTop_eq_ok.mp h; rfl
  | error k => obtain ⟨-, rfl⟩ := storeTop_eq_error.mp h; exact FaultKind.isAccess_memOob _

theorem push_onlyAccessFaults (s : State) (v : Byte) : OnlyAccessFaults (·.status = s.status) (push s v) :=
  storeTop_onlyAccessFaults s.decSp v

theorem pop_onlyAccessFaults (s : State) : OnlyAccessFaults (·.2.status = s.status) (pop s) :=
  (loadTop_onlyAccessFaults s).bind fun _ _ => rfl

theorem jumpTo_onlyAccessFaults (a : Byte) (s : State) : OnlyAccessFaults (·.status = s.status) (jumpTo a s) :=
  (readOperand_onlyAccessFaults s a).bind fun _ _ => rfl

/-- An ALU handler of a kind the ALU supports. -/
theorem aluHandler_onlyAccessFaults {kind : AluKind} (hkind : ∀ tag, kind ≠ .other tag) (a b : Byte) (s : State) :
    OnlyAccessFaults (·.status = s.status) (aluHandler kind a b s) := by
  cases h : aluHandler kind a b s with
  | ok t =>
    obtain ⟨u, hu, rfl⟩ := aluHandler_eq_ok.mp h
    obtain ⟨-, -, ⟨-, rfl⟩ | ⟨-, rfl⟩ | ⟨-, rfl⟩⟩ := alu_eq_ok.mp hu <;> rfl
  | error k =>
    obtain ⟨tag, htag, -⟩ | ⟨-, ⟨-, rfl⟩ | ⟨-, -, rfl⟩⟩ := alu_eq_error.mp (aluHandler_eq_error.mp h)
    · exact absurd htag (hkind tag)
    · exact FaultKind.isAccess_regOob _
    · exact FaultKind.isAccess_regOob _

/-- Every handler but HLT's commits a computation that raises faults of the accessors only and keeps STATUS. -/
theorem exec_onlyAccessFaults (hi : i ≠ .hlt) (s : State) :
    ∃ r, exec i s = commit s r ∧ OnlyAccessFaults (·.status = s.status) r := by
  cases i
  case hlt => exact absurd rfl hi
  all_goals refine ⟨_, rfl, ?_⟩
  case ldi a b => exact (writeOperand_onlyAccessFaults s a b).bind fun _ ht => ht
  case prn a => exact (readOperand_onlyAccessFaults s a).bind fun _ _ => rfl
  case add a b => exact aluHandler_onlyAccessFaults (kind := .add) nofun a b s
  case mul a b => exact aluHandler_onlyAccessFaults (kind := .mul) nofun a b s
  case cmp a b => exact aluHandler_onlyAccessFaults (kind := .cmp) nofun a b s
  case push a =>
    exact (readOperand_onlyAccessFaults s.decSp a).bind fun v _ =>
      (storeTop_onlyAccessFaults s.decSp v).bind fun _ ht => ht
  case pop a =>
    exact (loadTop_onlyAccessFaults s).bind fun v _ =>
      (writeOperand_onlyAccessFaults s a v).bind fun _ ht => ht
  case call a =>
    refine (push_onlyAccessFaults s _).bind fun t ht => ?_
    rw [← ht]
    exact jumpTo_onlyAccessFaults a t
  case ret => exact (pop_onlyAccessFaults s).bind fun _ ht => ht
  case jmp a => exact jumpTo_onlyAccessFaults a s
  case jeq a =>
    split
    · exact jumpTo_onlyAccessFaults a s
    · rfl
  case jne a =>
    split
    · rfl
    · exact jumpTo_onlyAccessFaults a s

/-- How a handler leaves STATUS: HLT halts, another completes with STATUS as it was, or takes a fault of the accessors. -/
theorem exec_next_status (h : exec i s = .next t) :
    t.status = .halted ∨ t.status = s.status ∨ ∃ k : FaultKind, k.IsAccess ∧ t = s.takeFault k := by
  by_cases hi : i = .hlt
  · subst hi
    rw [exec_hlt] at h
    cases h
    exact .inl rfl
  · obtain ⟨r, hr, haccess⟩ := exec_onlyAccessFaults hi s
    obtain rfl | ⟨k, rfl, rfl⟩ := commit_eq_next.mp (hr ▸ h)
    · exact .inr (.inl haccess)
    · exact .inr (.inr ⟨k, haccess, rfl⟩)

/-- The kind of a fault a step takes: fetch and decode raise MEM_OOB or UNKNOWN_OPCODE, a handler a fault of the
accessors. -/
theorem step_fault_kind {r : FaultRecord} (h : step s = .next t) (hr : t.status = .faulted r) :
    r.kind.IsAccess ∨ ∃ op, r.kind = .unknownOpcode op := by
  obtain ⟨hrun, ⟨i, -, hexec⟩ | ⟨k, hdecode, rfl⟩⟩ := step_eq_next.mp h
  · obtain hst | hst | ⟨k, hk, rfl⟩ := exec_next_status hexec
    · simp [hst] at hr
    · simp [hst, hrun] at hr
    · cases hr
      exact .inl hk
  · cases hr
    obtain ⟨-, rfl⟩ | ⟨-, -, rfl⟩ := fetchDecode_eq_error.mp hdecode
    · exact .inl (FaultKind.isAccess_memOob _)
    · exact .inr ⟨_, rfl⟩

/-- Settles O46: the ALU's guard by `alu_eq_error`, whose only unsupported kinds are the `other` ones; that no step takes
the fault by `step_fault_kind`. -/
theorem unsupportedAluOpIsGuardedAndUnreachable : Obligations.UnsupportedAluOpIsGuardedAndUnreachable := by
  refine ⟨fun kind a b s hadd hmul hcmp => ?raised, fun kind k a b s h => ?only, fun s t r k h hr => ?unreachable⟩
  case raised =>
    cases kind with
    | add => exact absurd rfl hadd
    | mul => exact absurd rfl hmul
    | cmp => exact absurd rfl hcmp
    | other tag => exact alu_eq_error.mpr (.inl ⟨tag, rfl, rfl⟩)
  case only =>
    obtain ⟨tag, rfl, hk⟩ | ⟨-, ⟨-, hk⟩ | ⟨-, -, hk⟩⟩ := alu_eq_error.mp h
    · cases hk
      exact ⟨rfl, nofun, nofun, nofun⟩
    · cases hk
    · cases hk
  case unreachable =>
    obtain haccess | ⟨op, hop⟩ := step_fault_kind h hr
    · exact haccess.ne_unsupportedAluOp k
    · rw [hop]
      exact nofun

end Sys2Proof.Machine

/-!
SUPPORT. Loading an image that fits in memory (70_reset_and_hazards.md R233), from any state and address: what each
cell reads afterwards, and that nothing but memory changes.
-/

namespace Sys2Proof.Machine

variable {s : State} {a : Nat} {vs : List Byte}

@[simp] theorem loadImage_nil (s : State) (a : Nat) : loadImage s a [] = s := rfl

theorem loadImage_cons_of_lt (h : a < memSize) (v : Byte) (vs : List Byte) :
    loadImage s a (v :: vs) = loadImage (s.setMem a v) (a + 1) vs := by
  rw [loadImage, memWrite_eq_ok.mpr ⟨h, rfl⟩]

/-- A loaded cell reads its byte of the image; a cell below the image or past its end reads as before. -/
theorem loadImage_mem_get (hwf : s.mem.wf) (hfit : a + vs.length ≤ memSize) (x : Nat) :
    (loadImage s a vs).mem.get x = if x < a then s.mem.get x else vs.getD (x - a) (s.mem.get x) := by
  induction vs generalizing s a with
  | nil => simp
  | cons v vs ih =>
    rw [List.length_cons] at hfit
    have ha : a < memSize := by omega
    rw [loadImage_cons_of_lt ha, ih (Memory.wf_set hwf ha v) (by omega), State.setMem_mem, Memory.get_set hwf]
    obtain hlt | rfl | hgt := Nat.lt_trichotomy x a
    · rw [if_pos (by omega), if_neg hlt.ne, if_pos hlt]
    · simp
    · have hsub : x - a = x - (a + 1) + 1 := by omega
      rw [if_neg (by omega), if_neg hgt.ne', if_neg (by omega), hsub, List.getD_cons_succ]

/-- An image that fits changes memory alone. -/
theorem loadImage_frame (hfit : a + vs.length ≤ memSize) :
    loadImage s a vs = { s with mem := (loadImage s a vs).mem } := by
  induction vs generalizing s a with
  | nil => rfl
  | cons v vs ih =>
    rw [List.length_cons] at hfit
    rw [loadImage_cons_of_lt (by omega)]
    exact ih (by omega)

/-- Settles O3: the two lemmas on `loadImage` at reset, whose memory is empty, from address 0. -/
theorem bootLoadsTheImage : Obligations.BootLoadsTheImage := by
  intro img hlen
  have hfit : Config.loadBase + img.length ≤ memSize := by rwa [Nat.zero_add]
  exact ⟨loadImage_mem_get reset_mem_wf hfit, loadImage_frame hfit⟩

end Sys2Proof.Machine

/-!
SUPPORT. The decoder and the encoder against each other (30_encoding.md R70 to R77): an instruction's operands and
opcode at the start of a window determine it, and the longest encoding is as long as the window.
-/

namespace Sys2Proof

/-- The operand bytes at the start of a window and the mnemonic determine the instruction. -/
theorem Instr.operands_isPrefix_iff {i : Instr} {a b : Byte} :
    i.operands <+: [a, b] ↔ i = i.mnemonic.instr a b := by
  cases i <;> simp [Instr.operands, Instr.mnemonic, Mnemonic.instr]

@[simp] theorem Mnemonic.mnemonic_instr (m : Mnemonic) (a b : Byte) : (m.instr a b).mnemonic = m := by
  cases m <;> rfl

theorem encode_isPrefix_iff {i : Instr} {op a b : Byte} :
    encode i <+: [op, a, b] ↔ i.mnemonic.opcode = op ∧ i = i.mnemonic.instr a b := by
  rw [encode, List.cons_prefix_cons, Instr.operands_isPrefix_iff]

/-- A window decodes to the instruction whose bytes begin it. -/
theorem decode_eq_ok_iff_encode_isPrefix {i : Instr} {op a b : Byte} :
    decode op a b = .ok i ↔ encode i <+: [op, a, b] := by
  rw [decode_eq_ok, encode_isPrefix_iff]
  constructor
  · rintro ⟨m, hop, rfl⟩
    simpa using hop
  · rintro ⟨hop, hi⟩
    exact ⟨i.mnemonic, hop, hi⟩

theorem encode_length_le (i : Instr) : (encode i).length ≤ 3 := by
  cases i <;> simp [encode, Instr.operands]

/-- Bytes of a window's length or more that begin with an instruction's bytes decode to it. -/
theorem decodeBytes_of_encode_isPrefix {i : Instr} : ∀ {w : List Byte}, 3 ≤ w.length → encode i <+: w →
    decodeBytes w = .ok i
  | op :: a :: b :: rest, _, h => by
    have hwindow : [op, a, b] <+: op :: a :: b :: rest := ⟨rest, rfl⟩
    exact decode_eq_ok_iff_encode_isPrefix.mpr
      (List.prefix_of_prefix_length_le h hwindow (encode_length_le i))

/-- Settles O6: both halves are `decode_eq_ok_iff_encode_isPrefix`, the first through the bytes an encoding begins. -/
theorem decodeAndEncodeAgree : Obligations.DecodeAndEncodeAgree := by
  refine ⟨fun i x y rest => ?roundTrip, fun op a b i => decode_eq_ok_iff_encode_isPrefix⟩
  refine decodeBytes_of_encode_isPrefix ?_ (List.prefix_append ..)
  rw [encode, List.length_append, List.length_cons, List.length_cons, List.length_cons]
  omega

/-- Settles O7: the listed bytes are the opcodes of the rows, and the decoder asks nothing else. -/
theorem decoderAcceptsExactlyTheTable : Obligations.DecoderAcceptsExactlyTheTable := by
  intro op a b
  refine ⟨?accepts, fun r hr => (decode_eq_error.mp hr).2⟩
  show _ ↔ op ∈ Mnemonic.all.map Mnemonic.opcode
  rw [List.mem_map]
  constructor
  · rintro ⟨i, hi⟩
    obtain ⟨m, hop, -⟩ := decode_eq_ok.mp hi
    exact ⟨m, m.mem_all, hop⟩
  · rintro ⟨m, -, hop⟩
    exact ⟨_, decode_eq_ok.mpr ⟨m, hop, rfl⟩⟩

/-- Settles O5: each window by evaluation of the table's lookup. -/
theorem opcodeWordsDecode : Obligations.OpcodeWordsDecode :=
  ⟨rfl, rfl, rfl, rfl, rfl, rfl, rfl, rfl⟩

end Sys2Proof

/-!
SUPPORT. What each handler does, said once: the fault it raises, if any (60_exceptions.md R202 to R204, in the order of
its checks), and the state it leaves if it raises none. `exec_eq` ties both to the model; every later fact about an
instruction is a fact about `faultOf` or `effect`.
-/

namespace Sys2Proof.Machine

variable {s t : State} {k : FaultKind} {i : Instr}

/-- The register an operand byte names; 0x00 where it names none. -/
def State.reg (s : State) (r : Byte) : Byte := s.regs[r.toNat]?.getD 0x00#8

theorem State.reg_of_lt {r : Byte} (h : r.toNat < 8) : s.reg r = s.regs[r.toNat] := by
  simp [State.reg, h]

/-- The fault of an access to the register an operand byte names. -/
def regFault (r : Byte) : Option FaultKind := if r.toNat < Config.nReg then none else some (.regOob r.toNat)

/-- The fault of an access to memory. -/
def cellFault (x : Nat) : Option FaultKind := if x < memSize then none else some (.memOob x)

theorem regFault_of_lt {r : Byte} (h : r.toNat < 8) : regFault r = none := if_pos h

theorem regFault_of_ge {r : Byte} (h : 8 ≤ r.toNat) : regFault r = some (.regOob r.toNat) := if_neg (Nat.not_lt.mpr h)

@[simp] theorem regFault_eq_none {r : Byte} : regFault r = none ↔ r.toNat < 8 := by
  simp [regFault]

@[simp] theorem regFault_eq_some {r : Byte} : regFault r = some k ↔ 8 ≤ r.toNat ∧ k = .regOob r.toNat := by
  simp [regFault, eq_comm]

@[simp] theorem cellFault_eq_none {x : Nat} : cellFault x = none ↔ x < memSize := by
  simp [cellFault]

@[simp] theorem cellFault_eq_some {x : Nat} : cellFault x = some k ↔ memSize ≤ x ∧ k = .memOob x := by
  simp [cellFault, eq_comm]

/-- The fault an instruction raises: the first failing check in the order the handler makes them (decision D25, log
entry 11). -/
def faultOf : Instr → State → Option FaultKind
  | .hlt, _ => none
  | .ldi a _, _ | .prn a, _ | .jmp a, _ => regFault a
  | .add a b, _ | .mul a b, _ | .cmp a b, _ => (regFault a).or (regFault b)
  | .push a, s => (regFault a).or (cellFault (pushAddr s))
  | .pop a, s => (cellFault s.sp.toNat).or (regFault a)
  | .call a, s => (cellFault (pushAddr s)).or (regFault a)
  | .ret, s => cellFault s.sp.toNat
  | .jeq a, s => if flagE s.fl then regFault a else none
  | .jne a, s => if flagE s.fl then none else regFault a

/-- The state an instruction that raises no fault leaves. -/
def effect : Instr → State → State
  | .hlt, s => s.setStatus .halted
  | .ldi a b, s => (s.setReg a.toNat b).advance 3
  | .prn a, s => (s.emit (s.reg a)).advance 2
  | .add a b, s => (s.setReg a.toNat (aluSum (s.reg a) (s.reg b))).advance 3
  | .mul a b, s => (s.setReg a.toNat (aluProduct (s.reg a) (s.reg b))).advance 3
  | .cmp a b, s => (s.setFl (cmpFlags s.fl (s.reg a) (s.reg b))).advance 3
  | .push a, s => (s.decSp.setMem (pushAddr s) (s.decSp.reg a)).advance 2
  | .pop a, s => (s.setReg a.toNat (s.mem.get s.sp.toNat)).incSp.advance 2
  | .call a, s => (s.decSp.setMem (pushAddr s) (returnAddr s)).setPc (s.decSp.reg a).toNat
  | .ret, s => s.incSp.setPc (s.mem.get s.sp.toNat).toNat
  | .jmp a, s => s.setPc (s.reg a).toNat
  | .jeq a, s => if flagE s.fl then s.setPc (s.reg a).toNat else s.advance 2
  | .jne a, s => if flagE s.fl then s.advance 2 else s.setPc (s.reg a).toNat

/-! A computation that may raise, as its fault and its answer: one equation per operation, composed by `answer_bind`. -/

/-- The computation that raises the given fault, if any, and answers `v` otherwise. -/
def answer {α : Type} (v : α) : Option FaultKind → Except FaultKind α
  | none => .ok v
  | some k => .error k

theorem answer_bind {α β : Type} (v : α) (w : β) (f f' : Option FaultKind) {g : α → Except FaultKind β}
    (h : g v = answer w f') : (answer v f >>= g) = answer w (f.or f') := by
  cases f with
  | none => exact h
  | some k => rfl

theorem answer_bind_ok {α β : Type} (v : α) (f : Option FaultKind) (g : α → β) :
    (answer v f >>= fun x => .ok (g x)) = answer (g v) f := by
  cases f <;> rfl

/-- Checking an operand again after another check adds no fault. -/
theorem or_or_self_left {α : Type} (f g : Option α) : f.or (g.or f) = f.or g := by
  cases f <;> simp

theorem readOperand_eq_answer (s : State) (r : Byte) : readOperand s r = answer (s.reg r) (regFault r) := by
  obtain h | h := Nat.lt_or_ge r.toNat 8
  · rw [readOperand_of_lt h, regFault_of_lt h, State.reg_of_lt h]; rfl
  · rw [readOperand_of_ge h, regFault_of_ge h]; rfl

theorem writeOperand_eq_answer (s : State) (r v : Byte) :
    writeOperand s r v = answer (s.setReg r.toNat v) (regFault r) := by
  obtain h | h := Nat.lt_or_ge r.toNat 8
  · rw [writeOperand_of_lt h, regFault_of_lt h]; rfl
  · rw [writeOperand_of_ge h, regFault_of_ge h]; rfl

theorem memRead_eq_answer (s : State) (x : Nat) : memRead s x = answer (s.mem.get x) (cellFault x) := by
  unfold memRead cellFault
  split <;> rfl

theorem memWrite_eq_answer (s : State) (x : Nat) (v : Byte) :
    memWrite s x v = answer (s.setMem x v) (cellFault x) := by
  unfold memWrite cellFault
  split <;> rfl

theorem jumpTo_eq_answer (a : Byte) (s : State) :
    jumpTo a s = answer (s.setPc (s.reg a).toNat) (regFault a) := by
  unfold jumpTo
  rw [readOperand_eq_answer]
  exact answer_bind_ok ..

/-- Reading both operands, then writing the first. -/
theorem binaryOperation_eq_answer (f : Byte → Byte → Byte) (a b : Byte) (s : State) :
    (do
      let x ← readOperand s a
      let y ← readOperand s b
      writeOperand s a (f x y)) = answer (s.setReg a.toNat (f (s.reg a) (s.reg b))) ((regFault a).or (regFault b)) := by
  simp only [readOperand_eq_answer, writeOperand_eq_answer]
  rw [← or_or_self_left (regFault a)]
  exact answer_bind _ _ _ _ (answer_bind _ _ _ _ rfl)

theorem alu_add_eq_answer (a b : Byte) (s : State) :
    alu .add a b s = answer (s.setReg a.toNat (aluSum (s.reg a) (s.reg b))) ((regFault a).or (regFault b)) :=
  binaryOperation_eq_answer aluSum a b s

theorem alu_mul_eq_answer (a b : Byte) (s : State) :
    alu .mul a b s = answer (s.setReg a.toNat (aluProduct (s.reg a) (s.reg b))) ((regFault a).or (regFault b)) :=
  binaryOperation_eq_answer aluProduct a b s

theorem alu_cmp_eq_answer (a b : Byte) (s : State) :
    alu .cmp a b s = answer (s.setFl (cmpFlags s.fl (s.reg a) (s.reg b))) ((regFault a).or (regFault b)) := by
  simp only [alu, readOperand_eq_answer]
  exact answer_bind _ _ _ _ (answer_bind_ok ..)

/-- Every handler commits its fault, if it raises one, and its effect otherwise. -/
theorem exec_eq (i : Instr) (s : State) : exec i s = commit s (answer (effect i s) (faultOf i s)) := by
  cases i
  case hlt => rfl
  all_goals refine congrArg (commit s) ?_
  case ldi a b =>
    rw [writeOperand_eq_answer]
    exact answer_bind_ok ..
  case prn a =>
    rw [readOperand_eq_answer]
    exact answer_bind_ok ..
  case add a b =>
    rw [aluHandler, alu_add_eq_answer]
    exact answer_bind_ok ..
  case mul a b =>
    rw [aluHandler, alu_mul_eq_answer]
    exact answer_bind_ok ..
  case cmp a b =>
    rw [aluHandler, alu_cmp_eq_answer]
    exact answer_bind_ok ..
  case push a =>
    dsimp only
    rw [readOperand_eq_answer]
    refine answer_bind _ _ _ _ ?_
    rw [storeTop, memWrite_eq_answer]
    exact answer_bind_ok ..
  case pop a =>
    rw [loadTop, memRead_eq_answer]
    refine answer_bind _ _ _ _ ?_
    rw [writeOperand_eq_answer]
    exact answer_bind_ok ..
  case call a =>
    rw [push, storeTop, memWrite_eq_answer]
    exact answer_bind _ _ _ _ (jumpTo_eq_answer ..)
  case ret =>
    rw [pop, loadTop, memRead_eq_answer, bind_assoc]
    exact answer_bind_ok ..
  case jmp a => exact jumpTo_eq_answer ..
  case jeq a =>
    rw [jumpTo_eq_answer, faultOf, effect]
    split <;> rfl
  case jne a =>
    rw [jumpTo_eq_answer, faultOf, effect]
    split <;> rfl

theorem exec_of_faultOf_none (h : faultOf i s = none) : exec i s = .next (effect i s) := by
  rw [exec_eq, h]; rfl

theorem exec_of_faultOf_some (h : faultOf i s = some k) : exec i s = .next (s.takeFault k) := by
  rw [exec_eq, h]; rfl

theorem takesFault_of_faultOf (h : faultOf i s = some k) : TakesFault (exec i s) k := by
  rw [exec_of_faultOf_some h]
  exact takesFault_takeFault s k

/-- How an instruction ends: it leaves its effect, or it takes its fault. -/
theorem exec_eq_next : exec i s = .next t ↔
    (faultOf i s = none ∧ t = effect i s) ∨ ∃ k, faultOf i s = some k ∧ t = s.takeFault k := by
  cases h : faultOf i s with
  | none => simp [exec_of_faultOf_none h, eq_comm]
  | some k => simp [exec_of_faultOf_some h, eq_comm]

/-- An instruction that completes raises no fault and leaves its effect. -/
theorem exec_completes (h : exec i s = .next t) (hf : t.isFaulted = false) : faultOf i s = none ∧ t = effect i s := by
  obtain hc | ⟨k, -, rfl⟩ := exec_eq_next.mp h
  · exact hc
  · rw [State.isFaulted_takeFault] at hf
    cases hf

end Sys2Proof.Machine

/-!
SUPPORT. What the effect of an instruction changes and what it leaves, field by field.
-/

namespace Sys2Proof.Machine

variable {s : State} {i : Instr}

/-- The registers an instruction that completes may change. -/
def destinations : Instr → List Nat
  | .ldi a _ | .add a _ | .mul a _ => [a.toNat]
  | .push _ | .call _ | .ret => [7]
  | .pop a => [a.toNat, 7]
  | .hlt | .prn _ | .cmp _ _ | .jmp _ | .jeq _ | .jne _ => []

theorem State.setReg_get_other {n r : Nat} (hr : r < 8) (h : r ≠ n) (v : Byte) :
    (s.setReg n v).regs[r] = s.regs[r] := by
  rw [State.setReg_get, if_neg h.symm]

theorem effect_regsKept (i : Instr) (s : State) : RegsKept s (effect i s) (destinations i) := by
  intro r hr hother
  cases i with
  | ldi a | add a | mul a => exact State.setReg_get_other hr (List.ne_of_not_mem_cons hother) _
  | push | call | ret => exact State.setReg_get_other hr (List.ne_of_not_mem_cons hother) _
  | pop a =>
    obtain ⟨ha, hsp⟩ := not_or.mp (mt List.mem_cons.mpr hother)
    exact (State.setReg_get_other hr (List.ne_of_not_mem_cons hsp) _).trans (State.setReg_get_other hr ha _)
  | jeq | jne => simp only [effect]; split <;> rfl
  | hlt | prn | cmp | jmp => rfl

theorem effect_status (hi : i ≠ .hlt) (s : State) : (effect i s).status = s.status := by
  cases i with
  | hlt => exact absurd rfl hi
  | jeq | jne => simp only [effect]; split <;> rfl
  | _ => rfl

theorem effect_fl (hi : ∀ a b, i ≠ .cmp a b) (s : State) : (effect i s).fl = s.fl := by
  cases i with
  | cmp a b => exact absurd rfl (hi a b)
  | jeq | jne => simp only [effect]; split <;> rfl
  | _ => rfl

theorem effect_out (hi : ∀ a, i ≠ .prn a) (s : State) : (effect i s).out = s.out := by
  cases i with
  | prn a => exact absurd rfl (hi a)
  | jeq | jne => simp only [effect]; split <;> rfl
  | _ => rfl

theorem effect_mem (hi : ∀ a, i ≠ .push a ∧ i ≠ .call a) (s : State) : (effect i s).mem = s.mem := by
  cases i with
  | push a => exact absurd rfl (hi a).1
  | call a => exact absurd rfl (hi a).2
  | jeq | jne => simp only [effect]; split <;> rfl
  | _ => rfl

/-- Only PUSH and CALL write memory, one byte, at the decremented stack pointer. -/
theorem effect_mem_cases (i : Instr) (s : State) :
    (effect i s).mem = s.mem ∨
    ∃ a v, (i = .push a ∨ i = .call a) ∧ (effect i s).mem = s.mem.set (pushAddr s) v := by
  cases i with
  | push a => exact .inr ⟨a, _, .inl rfl, rfl⟩
  | call a => exact .inr ⟨a, _, .inr rfl, rfl⟩
  | _ => exact .inl (effect_mem (by simp) s)

/-- A PUSH or a CALL that raises no fault stores in memory. -/
theorem pushAddr_lt_of_faultOf_none (hi : i = .push a ∨ i = .call a) (h : faultOf i s = none) :
    pushAddr s < memSize := by
  obtain rfl | rfl := hi
  · exact cellFault_eq_none.mp (Option.or_eq_none_iff.mp h).2
  · exact cellFault_eq_none.mp (Option.or_eq_none_iff.mp h).1

/-- PC is left, advanced past two or three bytes, or set to a byte's value. -/
theorem effect_pc_cases (i : Instr) (s : State) :
    (effect i s).pc = s.pc ∨ (effect i s).pc = s.pc + 2 ∨ (effect i s).pc = s.pc + 3 ∨
    ∃ v : Byte, (effect i s).pc = v.toNat := by
  cases i with
  | hlt => exact .inl rfl
  | prn | push | pop => exact .inr (.inl rfl)
  | ldi | add | mul | cmp => exact .inr (.inr (.inl rfl))
  | call | ret | jmp => exact .inr (.inr (.inr ⟨_, rfl⟩))
  | jeq a =>
    simp only [effect]
    split
    · exact .inr (.inr (.inr ⟨_, rfl⟩))
    · exact .inr (.inl rfl)
  | jne a =>
    simp only [effect]
    split
    · exact .inr (.inl rfl)
    · exact .inr (.inr (.inr ⟨_, rfl⟩))

end Sys2Proof.Machine

/-!
SUPPORT. The invariant (10_state.md R30, R34 and the canonical form of memory): each part is kept by the effect of an
instruction that was fetched and raises no fault; fault entry keeps all three.
-/

namespace Sys2Proof.Machine

variable {s t : State} {k : FaultKind} {i : Instr}

theorem effect_mem_wf (hs : s.mem.wf) (h : faultOf i s = none) : (effect i s).mem.wf := by
  obtain hm | ⟨a, v, hi, hm⟩ := effect_mem_cases i s
  · rwa [hm]
  · rw [hm]
    exact Memory.wf_set hs (pushAddr_lt_of_faultOf_none hi h) v

theorem effect_pc_le (h : s.pc + 2 < memSize) (i : Instr) : (effect i s).pc ≤ 255 := by
  have hsize : s.pc + 2 < 255 := h
  obtain hpc | hpc | hpc | ⟨v, hpc⟩ := effect_pc_cases i s
  · omega
  · omega
  · omega
  · have := v.isLt
    omega

theorem effect_fl_reserved (h : s.fl &&& 0xFE#8 = 0x00#8) (i : Instr) : (effect i s).fl &&& 0xFE#8 = 0x00#8 := by
  cases i with
  | cmp a b => exact cmpFlags_reserved h _ _
  | _ => rwa [effect_fl (by simp)]

theorem effect_inv (hs : s.Inv) (hpc : s.pc + 2 < memSize) (h : faultOf i s = none) : (effect i s).Inv := by
  obtain ⟨hwf, -, hfl⟩ := hs
  exact ⟨effect_mem_wf hwf h, effect_pc_le hpc i, effect_fl_reserved hfl i⟩

theorem takeFault_inv (hs : s.Inv) (k : FaultKind) : (s.takeFault k).Inv := hs

/-- What a step can do: the effect of the instruction fetched, or a fault, taken. -/
theorem step_eq_next_cases (h : step s = .next t) : s.status = .running ∧
    ((∃ i, fetchDecode s = .ok i ∧ faultOf i s = none ∧ t = effect i s) ∨
     (∃ i k, fetchDecode s = .ok i ∧ faultOf i s = some k ∧ t = s.takeFault k) ∨
     ∃ k, fetchDecode s = .error k ∧ t = s.takeFault k) := by
  obtain ⟨hrun, ⟨i, hi, hexec⟩ | hk⟩ := step_eq_next.mp h
  · obtain ⟨hnone, ht⟩ | ⟨k, hsome, ht⟩ := exec_eq_next.mp hexec
    · exact ⟨hrun, .inl ⟨i, hi, hnone, ht⟩⟩
    · exact ⟨hrun, .inr (.inl ⟨i, k, hi, hsome, ht⟩)⟩
  · exact ⟨hrun, .inr (.inr hk)⟩

/-- Settles O34: an instruction's effect keeps each part of the invariant, and fault entry touches none. -/
theorem stepKeepsTheInvariant : Obligations.StepKeepsTheInvariant := by
  intro s t hs h
  obtain ⟨-, ⟨i, hfetch, hnone, rfl⟩ | ⟨-, k, -, -, rfl⟩ | ⟨k, -, rfl⟩⟩ := step_eq_next_cases h
  · exact effect_inv hs (fetchDecode_eq_ok.mp hfetch).1 hnone
  · exact takeFault_inv hs k
  · exact takeFault_inv hs k

end Sys2Proof.Machine

/-!
SUPPORT. The step of a machine by its STATUS and by what fetch and decode answer (10_state.md R36, 40_engine.md R107).
-/

namespace Sys2Proof.Machine

variable {s t : State} {k : FaultKind} {i : Instr}

theorem step_of_fetchDecode_ok (hrun : s.status = .running) (h : fetchDecode s = .ok i) : step s = exec i s := by
  simp only [step, hrun, noStep, h]

theorem step_of_fetchDecode_error (hrun : s.status = .running) (h : fetchDecode s = .error k) :
    step s = .next (s.takeFault k) := by
  simp only [step, hrun, noStep, h, raiseFault]

theorem step_of_faulted {r : FaultRecord} (h : s.status = .faulted r) : step s = .fault (.faulted r) := by
  simp only [step, h, noStep]

/-- A step that completes executes the instruction fetched. -/
theorem step_completes (h : step s = .next t) (hf : t.isFaulted = false) :
    ∃ i, fetchDecode s = .ok i ∧ faultOf i s = none ∧ t = effect i s := by
  obtain ⟨-, hi | ⟨-, k, -, -, rfl⟩ | ⟨k, -, rfl⟩⟩ := step_eq_next_cases h
  · exact hi
  · rw [State.isFaulted_takeFault] at hf
    cases hf
  · rw [State.isFaulted_takeFault] at hf
    cases hf

theorem State.isFaulted_of_status_eq (h : t.status = s.status) : t.isFaulted = s.isFaulted := by
  simp only [State.isFaulted, h]

theorem State.not_isFaulted_of_running (h : s.status = .running) : s.isFaulted = false := by
  simp only [State.isFaulted, h]

/-- The effect of an instruction on a machine that is not FAULTED is not FAULTED. -/
theorem effect_not_isFaulted (hs : s.isFaulted = false) (i : Instr) : (effect i s).isFaulted = false := by
  by_cases hi : i = .hlt
  · rw [hi]; rfl
  · rw [State.isFaulted_of_status_eq (effect_status hi s), hs]

/-- Settles O8: the window in memory decodes, so the step is the handler's. -/
theorem stepRunsTheDecodedInstruction : Obligations.StepRunsTheDecodedInstruction :=
  fun _ _ hrun hwindow hdecode => step_of_fetchDecode_ok hrun (fetchDecode_eq_ok.mpr ⟨hwindow, hdecode⟩)

/-- Settles O9: the bytes of `encode i` at PC begin the fetch window, which
decodes to the instruction that begins it. -/
theorem stepRunsTheEncodedInstruction : Obligations.StepRunsTheEncodedInstruction := by
  intro s i hrun hwindow hbytes
  refine stepRunsTheDecodedInstruction s i hrun hwindow (decode_eq_ok_iff_encode_isPrefix.mpr ?begins)
  rw [List.prefix_iff_getElem]
  refine ⟨encode_length_le i, fun k hk => ?_⟩
  rw [← hbytes k hk]
  have hk3 : k < 3 := Nat.lt_of_lt_of_le hk (encode_length_le i)
  match k, hk3 with
  | 0, _ => rfl
  | 1, _ => rfl
  | 2, _ => rfl

/-- Settles O11: the fetch raises MEM_OOB with the larger of PC and 255. -/
theorem fetchPastMemoryFaults : Obligations.FetchPastMemoryFaults := by
  intro s hrun hpc
  have hfault : TakesFault (step s) (.memOob (max s.pc 255)) := by
    have hfetch : fetchDecode s = .error (.memOob (max s.pc 255)) :=
      fetchDecode_eq_error.mpr (.inl ⟨by show 255 ≤ s.pc + 2; omega, rfl⟩)
    rw [step_of_fetchDecode_error hrun hfetch]
    exact takesFault_takeFault s _
  refine ⟨fun hle => ?_, fun hgt => ?_⟩
  · rwa [Nat.max_eq_right hle] at hfault
  · rwa [Nat.max_eq_left hgt.le] at hfault

/-- Settles O13: a RUNNING machine executes what it fetched, for every handler has a next state, or takes the fault of
its fetch. -/
theorem stepExistsExactlyWhenRunning : Obligations.StepExistsExactlyWhenRunning := by
  refine fun s => ⟨⟨fun ⟨t, h⟩ => (step_eq_next.mp h).1, fun hrun => ?runs⟩, fun r => step_of_faulted⟩
  cases hfetch : fetchDecode s with
  | error k => exact ⟨_, step_of_fetchDecode_error hrun hfetch⟩
  | ok i =>
    rw [step_of_fetchDecode_ok hrun hfetch]
    cases hfault : faultOf i s with
    | none => exact ⟨_, exec_of_faultOf_none hfault⟩
    | some k => exact ⟨_, exec_of_faultOf_some hfault⟩

/-- A step that leaves the machine HALTED executed HLT. -/
theorem fetchDecode_of_step_halted (h : step s = .next t) (ht : t.status = .halted) : fetchDecode s = .ok .hlt := by
  obtain ⟨hrun, ⟨i, hfetch, -, rfl⟩ | ⟨-, k, -, -, rfl⟩ | ⟨k, -, rfl⟩⟩ := step_eq_next_cases h
  · by_cases hi : i = .hlt
    · rw [hfetch, hi]
    · rw [effect_status hi, hrun] at ht
      cases ht
  · cases ht
  · cases ht

/-- Settles O26: HLT's handler is the update of STATUS, and no other way of ending a step sets it to HALTED. -/
theorem hltAndOnlyHltHalts : Obligations.HltAndOnlyHltHalts :=
  ⟨fun _ => exec_hlt, fun _ _ h ht => fetchDecode_eq_ok.mp (fetchDecode_of_step_halted h ht)⟩

/-- Settles O50: fault entry is an update of STATUS, and the effect of an instruction leaves no machine FAULTED that was
not. -/
theorem faultEntryCommitsNothing : Obligations.FaultEntryCommitsNothing := by
  have handler : ∀ (i : Instr) (s t : State), s.isFaulted = false → exec i s = .next t → t.isFaulted = true →
      t = { s with status := t.status } := by
    intro i s t hs h hf
    obtain ⟨-, rfl⟩ | ⟨k, -, rfl⟩ := exec_eq_next.mp h
    · rw [effect_not_isFaulted hs] at hf
      cases hf
    · rfl
  refine ⟨fun s t h hf => ?step, handler⟩
  obtain ⟨hrun, ⟨i, -, hexec⟩ | ⟨k, -, rfl⟩⟩ := step_eq_next.mp h
  · exact handler i s t (State.not_isFaulted_of_running hrun) hexec hf
  · rfl

/-! Runs. -/

/-- A machine that takes no step stays where it is. -/
theorem runFor_of_step_fault {f : Fault} (h : step s = .fault f) (n : Nat) : runFor n s = s := by
  cases n with
  | zero => rfl
  | succ n => rw [runFor, h]

theorem runFor_succ_of_step (h : step s = .next t) (n : Nat) : runFor (n + 1) s = runFor n t := by
  rw [runFor, h]

/-- A run from a RUNNING state to a HALTED one has a last step, which executes HLT. -/
theorem exists_hlt_step_of_runFor {n : Nat} (hrun : s.status = .running) (ht : (runFor n s).status = .halted) :
    ∃ m, fetchDecode (runFor m s) = .ok .hlt ∧ step (runFor m s) = .next (runFor n s) := by
  induction n generalizing s with
  | zero =>
    rw [runFor, hrun] at ht
    cases ht
  | succ n ih =>
    obtain ⟨u, hu⟩ := (stepExistsExactlyWhenRunning s).1.mpr hrun
    rw [runFor_succ_of_step hu] at ht ⊢
    cases hus : u.status with
    | running =>
      obtain ⟨m, hm⟩ := ih hus ht
      exact ⟨m + 1, by rwa [runFor_succ_of_step hu]⟩
    | halted =>
      rw [runFor_of_step_fault (step_of_halted hus)]
      exact ⟨0, fetchDecode_of_step_halted hu hus, hu⟩
    | faulted r =>
      rw [runFor_of_step_fault (step_of_faulted hus), hus] at ht
      cases ht

/-- Settles O49: by induction on the run's bound, through the STATUS of the first step's next state. -/
theorem runsEndOnlyThroughHlt : Obligations.RunsEndOnlyThroughHlt := by
  rintro s _ hrun ⟨ht, n, rfl⟩
  obtain ⟨m, hfetch, hstep⟩ := exists_hlt_step_of_runFor hrun ht
  exact ⟨m, runFor m s, rfl, hfetch, hstep⟩

end Sys2Proof.Machine

/-!
SUPPORT. Reset, the loader and the trace (70_reset_and_hazards.md R230 to R234, 40_engine.md R111).
-/

namespace Sys2Proof.Machine

variable {s : State} {a : Nat} {vs : List Byte}

theorem loadImage_cons_of_ge (h : memSize ≤ a) (v : Byte) (vs : List Byte) :
    loadImage s a (v :: vs) = s.takeFault (.memOob a) := by
  rw [loadImage, memWrite_eq_error.mpr ⟨h, rfl⟩]

/-- A load that runs past memory ends in the fault of its first address past memory, at the PC it began with. -/
theorem loadImage_status_of_overflow (ha : a ≤ memSize) (h : memSize < a + vs.length) :
    (loadImage s a vs).status = .faulted { kind := .memOob memSize, pc := s.pc } := by
  induction vs generalizing s a with
  | nil =>
    rw [List.length_nil] at h
    omega
  | cons v vs ih =>
    obtain hlt | rfl := Nat.lt_or_eq_of_le ha
    · rw [List.length_cons] at h
      rw [loadImage_cons_of_lt hlt, ih hlt (by omega), State.setMem_pc]
    · rw [loadImage_cons_of_ge le_rfl, State.takeFault_status]

/-- Settles O4: the load's fault, and a FAULTED machine takes no step. -/
theorem bootOfALongImageFaults : Obligations.BootOfALongImageFaults := by
  intro img hlen
  have hstatus : (boot img).status = .faulted { kind := .memOob 255, pc := 0 } :=
    loadImage_status_of_overflow (Nat.zero_le _) (by rwa [Nat.zero_add])
  refine ⟨hstatus, fun t => ?_⟩
  rw [step_of_faulted hstatus]
  exact nofun

theorem loadByte_mem_wf (hs : s.mem.wf) (a : Nat) (v : Byte) : (loadByte s a v).mem.wf := by
  unfold loadByte
  cases hw : memWrite s a v with
  | ok t => exact memWrite_mem_wf hs hw
  | error k => exact hs

/-- Settles O52: one law per operation, on top of `Memory.wf_set`. -/
theorem memoryOperationsKeepTheCanonicalForm : Obligations.MemoryOperationsKeepTheCanonicalForm :=
  ⟨fun _ _ _ _ hs h => memWrite_mem_wf hs h, fun _ a v hs => loadByte_mem_wf hs a v,
    fun img => loadImage_mem_wf img reset_mem_wf _,
    fun s _ _ hs => storeBytes_mem_wf _ (s := s.setStatus .running) hs _⟩

/-- Settles O1: every field of the reset state is its parameter, and an empty memory reads 0x00 at every address. -/
theorem resetLeavesTheGivenValues : Obligations.ResetLeavesTheGivenValues :=
  ⟨rfl, rfl, rfl, rfl, rfl, Memory.get_nil, rfl, fun _ => rfl⟩

/-- Settles O2: memory by `reset_mem_wf`, PC and FL by their values at reset. -/
theorem resetSatisfiesTheInvariant : Obligations.ResetSatisfiesTheInvariant :=
  ⟨reset_mem_wf, by decide, by decide⟩

/-- Settles O51: the trace's three bytes, one by one. -/
theorem traceShowsPcBytesAndRegisters : Obligations.TraceShowsPcBytesAndRegisters := by
  refine fun s => ⟨rfl, rfl, fun k hk => ?_⟩
  match k, hk with
  | 0, _ => rfl
  | 1, _ => rfl
  | 2, _ => rfl

end Sys2Proof.Machine

/-!
SUPPORT. The frames of the instructions (what an instruction that completes leaves unchanged), from the laws of `effect`
field by field.
-/

namespace Sys2Proof.Machine

variable {s t : State} {i : Instr}

theorem effect_memKept (hi : ∀ a, i ≠ .push a ∧ i ≠ .call a) (s : State) : MemKept s (effect i s) :=
  fun x => congrArg (Memory.get · x) (effect_mem hi s)

/-- An instruction that completes and is no HLT, CMP, PRN, PUSH or CALL changes PC and its destinations alone. -/
theorem exec_frame (h : exec i s = .next t) (hf : t.isFaulted = false) (hhlt : i ≠ .hlt) (hcmp : ∀ a b, i ≠ .cmp a b)
    (hprn : ∀ a, i ≠ .prn a) (hstack : ∀ a, i ≠ .push a ∧ i ≠ .call a) :
    RegsKept s t (destinations i) ∧ t.fl = s.fl ∧ t.status = s.status ∧ MemKept s t ∧ t.out = s.out := by
  obtain ⟨-, rfl⟩ := exec_completes h hf
  exact ⟨effect_regsKept i s, effect_fl hcmp s, effect_status hhlt s, effect_memKept hstack s, effect_out hprn s⟩

/-- Settles O27: the destination of each of the three is `a`. -/
theorem registerWritersFrame : Obligations.RegisterWritersFrame := by
  intro i a b s t hi h hf
  obtain rfl | rfl | rfl := hi <;> exact exec_frame h hf (by simp) (by simp) (by simp) (by simp)

/-- Settles O28: FL is `cmpFlags`, which changes no bit but E. -/
theorem cmpFrame : Obligations.CmpFrame := by
  intro a b s t h hf
  obtain ⟨-, rfl⟩ := exec_completes h hf
  exact ⟨effect_regsKept (.cmp a b) s, fun n hn => cmpFlags_other_bits _ _ _ hn, effect_status (by simp) s,
    effect_memKept (by simp) s, effect_out (by simp) s⟩

/-- Settles O29: OUT grows by the register's byte. -/
theorem prnFrame : Obligations.PrnFrame := by
  intro a s t h hf
  obtain ⟨-, rfl⟩ := exec_completes h hf
  exact ⟨effect_regsKept (.prn a) s, effect_fl (by simp) s, effect_status (by simp) s, effect_memKept (by simp) s,
    _, rfl⟩

/-- Settles O30: a jump has no destination register. -/
theorem jumpFrame : Obligations.JumpFrame := by
  intro i a s t hi h hf
  obtain rfl | rfl | rfl := hi <;> exact exec_frame h hf (by simp) (by simp) (by simp) (by simp)

/-- Settles O31: HLT's next state is the old one with STATUS replaced. -/
theorem hltFrame : Obligations.HltFrame := by
  intro s t h
  rw [exec_hlt] at h
  cases h
  exact ⟨fun _ _ _ => rfl, rfl, rfl, fun _ => rfl, rfl⟩

/-- Memory at every address but the one a push stores to is kept by every instruction. -/
theorem effect_mem_get_other {x : Nat} (hx : x ≠ pushAddr s) (i : Instr) : (effect i s).mem.get x = s.mem.get x := by
  obtain hm | ⟨a, v, -, hm⟩ := effect_mem_cases i s
  · rw [hm]
  · rw [hm, Memory.get_set_other _ hx]

/-- Settles O32: the one destination of each is SP, and memory changes at `pushAddr s` alone. -/
theorem stackWritersFrame : Obligations.StackWritersFrame := by
  intro i a s t hi h hf
  obtain ⟨-, rfl⟩ := exec_completes h hf
  have hregs := effect_regsKept i s
  obtain rfl | rfl := hi <;>
    exact ⟨hregs, effect_fl (by simp) s, effect_status (by simp) s, effect_out (by simp) s,
      fun x hx => effect_mem_get_other hx _⟩

/-- Settles O33: neither instruction writes memory, and SP is a destination of both. -/
theorem stackReadersFrame : Obligations.StackReadersFrame :=
  ⟨fun _ _ _ h hf => exec_frame h hf (by simp) (by simp) (by simp) (by simp),
    fun _ _ h hf => exec_frame h hf (by simp) (by simp) (by simp) (by simp)⟩

/-- Settles O37: an address whose byte changes is the one a PUSH or a CALL stores to. -/
theorem memoryChangesOnlyByPushAndCall : Obligations.MemoryChangesOnlyByPushAndCall := by
  intro s t x h hf hx
  obtain ⟨i, hfetch, hnone, rfl⟩ := step_completes h hf
  obtain hm | ⟨a, v, hi, hm⟩ := effect_mem_cases i s
  · rw [hm] at hx
    exact absurd rfl hx
  · obtain rfl : x = pushAddr s := by
      by_contra hne
      exact hx (effect_mem_get_other hne i)
    refine ⟨rfl, pushAddr_lt_of_faultOf_none hi hnone, a, ?_⟩
    rw [hfetch]
    exact hi.imp (congrArg _) (congrArg _)

/-- Settles O35: PC of the effect, where the register a jump or CALL reads is one that exists, since no fault is
raised. -/
theorem eachHandlerMovesThePc : Obligations.EachHandlerMovesThePc := by
  refine ⟨fun i s t h hf => ?_, fun s i hrun => step_of_fetchDecode_ok hrun⟩
  obtain ⟨hnone, rfl⟩ := exec_completes h hf
  have target : ∀ {a : Byte} (u : State), regFault a = none →
      ∃ _ : a.toNat < 8, (u.reg a).toNat = u.regs[a.toNat].toNat := fun u ha =>
    ⟨regFault_eq_none.mp ha, congrArg BitVec.toNat (State.reg_of_lt _)⟩
  cases i with
  | hlt | ldi | prn | add | mul | cmp | push | pop | ret => rfl
  | call a => exact target s.decSp (Option.or_eq_none_iff.mp hnone).2
  | jmp a => exact target s hnone
  | jeq a =>
    by_cases he : flagE s.fl = true
    · simp only [faultOf, effect, he, if_true] at hnone ⊢
      exact target s hnone
    · simp only [effect, he]
      rfl
  | jne a =>
    by_cases he : flagE s.fl = true
    · simp only [effect, he, if_true]
      rfl
    · simp only [faultOf, effect, he] at hnone ⊢
      exact target s hnone

/-- Settles O36: FL changes by a CMP alone, and `cmpFlags` sets E for equal operands. -/
theorem equalFlagIsSticky : Obligations.EqualFlagIsSticky := by
  refine ⟨rfl, fun i s t h hf => ?_⟩
  obtain ⟨hnone, rfl⟩ := exec_completes h hf
  cases i with
  | cmp a b =>
    obtain ⟨ha, hb⟩ := (Option.or_eq_none_iff.mp hnone).imp regFault_eq_none.mp regFault_eq_none.mp
    have hfl : (effect (.cmp a b) s).fl = cmpFlags s.fl s.regs[a.toNat] s.regs[b.toNat] := by
      rw [← State.reg_of_lt ha, ← State.reg_of_lt hb]; rfl
    rw [hfl, flagE_cmpFlags, Bool.or_eq_true, decide_eq_true_iff]
    refine or_congr_right ⟨fun heq => ⟨a, b, ha, hb, rfl, heq⟩, ?_⟩
    rintro ⟨_, _, _, _, ⟨⟩, heq⟩
    exact heq
  | _ =>
    rw [effect_fl (by simp)]
    simp

end Sys2Proof.Machine

/-!
SUPPORT. The causes of the faults (60_exceptions.md R201 to R207).
-/

namespace Sys2Proof.Machine

variable {s : State} {k : FaultKind} {i : Instr}

/-- The cells of memory are all addresses a byte can name but 255. -/
theorem byte_toNat_lt_memSize_iff {v : Byte} : v.toNat < memSize ↔ v ≠ 255#8 := by
  show v.toNat < 255 ↔ v ≠ 255#8
  constructor
  · rintro h rfl
    exact absurd h (by decide)
  · intro h
    bv_omega

theorem cellFault_toNat_eq_some {v : Byte} : cellFault v.toNat = some k ↔ v = 255#8 ∧ k = .memOob 255 := by
  rw [cellFault_eq_some, ← Nat.not_lt, byte_toNat_lt_memSize_iff, not_not]
  refine and_congr_right ?_
  rintro rfl
  rfl

theorem pushAddr_eq (s : State) : pushAddr s = (s.sp - 1#8).toNat := by
  rw [pushAddr, State.sp_decSp]

/-- The decremented stack pointer is 255 exactly for SP = 0 (decision D5). -/
theorem byte_sub_one_eq_iff {v : Byte} : v - 1#8 = 255#8 ↔ v = 0#8 := by
  constructor
  · intro h
    bv_omega
  · rintro rfl
    rfl

theorem pushAddr_lt_memSize_iff : pushAddr s < memSize ↔ s.sp ≠ 0#8 := by
  rw [pushAddr_eq, byte_toNat_lt_memSize_iff, Ne, byte_sub_one_eq_iff]

theorem cellFault_pushAddr_eq_some : cellFault (pushAddr s) = some k ↔ s.sp = 0#8 ∧ k = .memOob 255 := by
  rw [pushAddr_eq, cellFault_toNat_eq_some, byte_sub_one_eq_iff]

/-- Why an instruction raises a fault: a register operand that names no register, a push from SP = 0, or a pop from
SP = 255. -/
theorem faultOf_cause (h : faultOf i s = some k) :
    (∃ r ∈ i.registerOperands, 8 ≤ r.toNat ∧ k = .regOob r.toNat) ∨
    (k = .memOob 255 ∧ s.sp = 0#8 ∧ ∃ a, i = .push a ∨ i = .call a) ∨
    (k = .memOob 255 ∧ s.sp = 255#8 ∧ (i = .ret ∨ ∃ a, i = .pop a)) := by
  have register : ∀ {a : Byte}, a ∈ i.registerOperands → regFault a = some k →
      ∃ r ∈ i.registerOperands, 8 ≤ r.toNat ∧ k = .regOob r.toNat :=
    fun ha hk => ⟨_, ha, regFault_eq_some.mp hk⟩
  cases i with
  | hlt => cases h
  | ldi | prn | jmp => exact .inl (register (List.mem_cons_self ..) h)
  | add a b | mul a b | cmp a b =>
    obtain h | ⟨-, h⟩ := Option.or_eq_some_iff.mp h
    · exact .inl (register (List.mem_cons_self ..) h)
    · exact .inl (register (List.mem_cons_of_mem _ (List.mem_cons_self ..)) h)
  | push a =>
    obtain h | ⟨-, h⟩ := Option.or_eq_some_iff.mp h
    · exact .inl (register (List.mem_cons_self ..) h)
    · obtain ⟨hsp, rfl⟩ := cellFault_pushAddr_eq_some.mp h
      exact .inr (.inl ⟨rfl, hsp, a, .inl rfl⟩)
  | call a =>
    obtain h | ⟨-, h⟩ := Option.or_eq_some_iff.mp h
    · obtain ⟨hsp, rfl⟩ := cellFault_pushAddr_eq_some.mp h
      exact .inr (.inl ⟨rfl, hsp, a, .inr rfl⟩)
    · exact .inl (register (List.mem_cons_self ..) h)
  | pop a =>
    obtain h | ⟨-, h⟩ := Option.or_eq_some_iff.mp h
    · obtain ⟨hsp, rfl⟩ := cellFault_toNat_eq_some.mp h
      exact .inr (.inr ⟨rfl, hsp, .inr ⟨a, rfl⟩⟩)
    · exact .inl (register (List.mem_cons_self ..) h)
  | ret =>
    obtain ⟨hsp, rfl⟩ := cellFault_toNat_eq_some.mp h
    exact .inr (.inr ⟨rfl, hsp, .inl rfl⟩)
  | jeq a =>
    simp only [faultOf] at h
    split at h
    · exact .inl (register (List.mem_cons_self ..) h)
    · cases h
  | jne a =>
    simp only [faultOf] at h
    split at h
    · cases h
    · exact .inl (register (List.mem_cons_self ..) h)

theorem State.status_ne_faulted (h : s.isFaulted = false) (r : FaultRecord) : s.status ≠ .faulted r := by
  intro hr
  rw [State.isFaulted, hr] at h
  cases h

/-- The fault of the state that a fault taken leaves is that fault, at the state's PC. -/
theorem eq_of_takeFault_status {r : FaultRecord} (h : (s.takeFault k).status = .faulted r) :
    r = { kind := k, pc := s.pc } := by
  cases h
  rfl

/-- Settles O45: a step takes a fault of its instruction, whose causes
are `faultOf_cause`, or of its fetch and decode. -/
theorem everyFaultHasItsCause : Obligations.EveryFaultHasItsCause := by
  intro s t r h hr
  obtain ⟨hrun, ⟨i, -, -, rfl⟩ | ⟨i, k, hfetch, hfault, rfl⟩ | ⟨k, hfetch, rfl⟩⟩ := step_eq_next_cases h
  · exact absurd hr (State.status_ne_faulted (effect_not_isFaulted (State.not_isFaulted_of_running hrun) i) r)
  · obtain rfl := eq_of_takeFault_status hr
    refine ⟨rfl, ?_⟩
    obtain ⟨b, hb, hge, rfl⟩ | ⟨rfl, hsp, a, hi⟩ | ⟨rfl, hsp, hi⟩ := faultOf_cause hfault
    · exact ⟨i, hfetch, hge, b, hb, rfl⟩
    · exact .inr (.inl ⟨rfl, hsp, a, hi.imp (hfetch.trans <| congrArg _ ·) (hfetch.trans <| congrArg _ ·)⟩)
    · exact .inr (.inr ⟨rfl, hsp, hi.imp (hfetch.trans <| congrArg _ ·)
        fun ⟨a, ha⟩ => ⟨a, hfetch.trans (congrArg _ ha)⟩⟩)
  · obtain rfl := eq_of_takeFault_status hr
    refine ⟨rfl, ?_⟩
    obtain ⟨hpc, rfl⟩ | ⟨-, hop, rfl⟩ := fetchDecode_eq_error.mp hfetch
    · exact .inl ⟨by have : 255 ≤ s.pc + 2 := hpc; omega, rfl⟩
    · exact ⟨rfl, hop⟩

/-- Settles O47: a REG_OOB has a register operand of 8 or above as its cause. -/
theorem wellFormedInstructionsRaiseNoRegOob : Obligations.WellFormedInstructionsRaiseNoRegOob := by
  intro i s t r n hwf hrun h hr
  obtain ⟨-, rfl⟩ | ⟨k, hfault, rfl⟩ := exec_eq_next.mp h
  · exact absurd hr (State.status_ne_faulted (effect_not_isFaulted (State.not_isFaulted_of_running hrun) i) r)
  · obtain rfl := eq_of_takeFault_status hr
    obtain ⟨b, hb, hge, -⟩ | ⟨rfl, -⟩ | ⟨rfl, -⟩ := faultOf_cause hfault
    · exact absurd (Instr.wellFormed_eq_true.mp hwf b hb) (Nat.not_lt.mpr hge)
    · exact nofun
    · exact nofun

/-- Settles O48: each cause of a fault is excluded by a premise, so the step leaves the instruction's effect. -/
theorem stepsAwayFromTheEdgesAreSafe : Obligations.StepsAwayFromTheEdgesAreSafe := by
  intro s i hrun hfetch hwf hpush hpop
  have hnone : faultOf i s = none := by
    cases hfault : faultOf i s with
    | none => rfl
    | some k =>
      obtain ⟨b, hb, hge, -⟩ | ⟨-, hsp, a, hi⟩ | ⟨-, hsp, hi⟩ := faultOf_cause hfault
      · exact absurd (Instr.wellFormed_eq_true.mp hwf b hb) (Nat.not_lt.mpr hge)
      · exact absurd hsp (hpush a hi)
      · obtain hi | ⟨a, hi⟩ := hi
        · exact absurd hsp (hpop 0#8 (.inr hi))
        · exact absurd hsp (hpop a (.inl hi))
  refine ⟨effect i s, ?_, effect_not_isFaulted (State.not_isFaulted_of_running hrun) i⟩
  rw [step_of_fetchDecode_ok hrun hfetch, exec_of_faultOf_none hnone]

end Sys2Proof.Machine

/-!
SUPPORT. The ALU's instructions and the conditional jumps by case (42_alu.md R130 to R137, 44_control.md R172, R173).
-/

namespace Sys2Proof.Machine

variable {s : State} {i : Instr} {a b : Byte}

theorem regFault_or_of_lt (ha : a.toNat < 8) (f : Option FaultKind) : (regFault a).or f = f := by
  rw [regFault_of_lt ha, Option.none_or]

theorem regFault_or_of_ge (ha : 8 ≤ a.toNat) (f : Option FaultKind) :
    (regFault a).or f = some (.regOob a.toNat) := by
  rw [regFault_of_ge ha, Option.some_or]

theorem regFaults_of_lt (ha : a.toNat < 8) (hb : b.toNat < 8) : (regFault a).or (regFault b) = none :=
  (regFault_or_of_lt ha _).trans (regFault_of_lt hb)

theorem aluSum_eq_add (x y : Byte) : aluSum x y = x + y := BitVec.eq_of_toNat_eq (by simp [aluSum, narrow])

theorem aluProduct_eq_mul (x y : Byte) : aluProduct x y = x * y :=
  BitVec.eq_of_toNat_eq (by simp [aluProduct, narrow])

theorem exec_add_of_lt (ha : a.toNat < 8) (hb : b.toNat < 8) : exec (.add a b) s =
    .next ((s.setReg a.toNat (aluSum s.regs[a.toNat] s.regs[b.toNat])).advance 3) := by
  rw [exec_of_faultOf_none (i := .add a b) (regFaults_of_lt ha hb), effect, State.reg_of_lt ha, State.reg_of_lt hb]

theorem exec_mul_of_lt (ha : a.toNat < 8) (hb : b.toNat < 8) : exec (.mul a b) s =
    .next ((s.setReg a.toNat (aluProduct s.regs[a.toNat] s.regs[b.toNat])).advance 3) := by
  rw [exec_of_faultOf_none (i := .mul a b) (regFaults_of_lt ha hb), effect, State.reg_of_lt ha, State.reg_of_lt hb]

theorem exec_cmp_of_lt (ha : a.toNat < 8) (hb : b.toNat < 8) : exec (.cmp a b) s =
    .next ((s.setFl (cmpFlags s.fl s.regs[a.toNat] s.regs[b.toNat])).advance 3) := by
  rw [exec_of_faultOf_none (i := .cmp a b) (regFaults_of_lt ha hb), effect, State.reg_of_lt ha, State.reg_of_lt hb]

/-- The faults of an instruction that checks register `a`, then register `b`. -/
theorem takesFault_of_two_registers (hi : faultOf i s = (regFault a).or (regFault b)) :
    (8 ≤ a.toNat → TakesFault (exec i s) (.regOob a.toNat)) ∧
    (a.toNat < 8 → 8 ≤ b.toNat → TakesFault (exec i s) (.regOob b.toNat)) :=
  ⟨fun ha => takesFault_of_faultOf (hi.trans (regFault_or_of_ge ha _)),
    fun ha hb => takesFault_of_faultOf (hi.trans ((regFault_or_of_lt ha _).trans (regFault_of_ge hb)))⟩

/-- Settles O16: the sum of bytes is the sum modulo 256, and both operands are checked before the write. -/
theorem addAddsModulo256 : Obligations.AddAddsModulo256 := by
  refine fun s a b => ⟨fun ha hb => ⟨aluSum s.regs[a.toNat] s.regs[b.toNat], ?value, ?next⟩,
    takesFault_of_two_registers rfl⟩
  case value => rw [aluSum_eq_add, BitVec.toNat_add]
  case next =>
    rw [exec_add_of_lt ha hb, State.setReg_of_lt ha]
    rfl

/-- Settles O17: the product of bytes is the product modulo 256, and both operands are checked before the write. -/
theorem mulMultipliesModulo256 : Obligations.MulMultipliesModulo256 := by
  refine fun s a b => ⟨fun ha hb => ⟨aluProduct s.regs[a.toNat] s.regs[b.toNat], ?value, ?next⟩,
    takesFault_of_two_registers rfl⟩
  case value => rw [aluProduct_eq_mul, BitVec.toNat_mul]
  case next =>
    rw [exec_mul_of_lt ha hb, State.setReg_of_lt ha]
    rfl

/-- Settles O18: `cmpFlags` on equal and on different operands. -/
theorem cmpSetsTheEqualFlag : Obligations.CmpSetsTheEqualFlag := by
  refine fun s a b => ⟨fun ha hb => ⟨fun heq => ?equal, fun hne => ?different⟩, takesFault_of_two_registers rfl⟩
  case equal =>
    rw [exec_cmp_of_lt ha hb, cmpFlags, if_pos heq]
    rfl
  case different =>
    rw [exec_cmp_of_lt ha hb, cmpFlags, if_neg hne]
    rfl

/-- Settles O40: a successful operation is an update of one register or of FL, by values read from registers and FL. -/
theorem aluReadsOnlyRegistersAndFlags : Obligations.AluReadsOnlyRegistersAndFlags := by
  intro kind a b s t u hregs hfl h
  obtain ⟨ha, hb, hwrite⟩ := alu_eq_ok.mp h
  rw [alu_eq_ok]
  simp only [← hregs, ← hfl]
  obtain ⟨rfl, rfl⟩ | ⟨rfl, rfl⟩ | ⟨rfl, rfl⟩ := hwrite
  · refine ⟨rfl, ha, hb, .inl ⟨rfl, ?_⟩⟩
    simp [State.setReg, hregs, hfl]
  · refine ⟨rfl, ha, hb, .inr (.inl ⟨rfl, ?_⟩)⟩
    simp [State.setReg, hregs, hfl]
  · refine ⟨rfl, ha, hb, .inr (.inr ⟨rfl, ?_⟩)⟩
    simp [State.setFl, hregs]

/-- Settles O41: ADD and MUL are `+` and `*` of bytes, and write register `a` alone. -/
theorem addAndMulLaws : Obligations.AddAndMulLaws := by
  refine ⟨fun s a b ha hb => ⟨_, _, _, _, exec_add_of_lt ha hb, exec_add_of_lt hb ha, exec_mul_of_lt ha hb,
    exec_mul_of_lt hb ha, ?sum, ?product, fun hne => ?source⟩, fun x y z => ?associative⟩
  case sum => simp only [State.advance_regs, State.setReg_get, if_true, aluSum_eq_add, BitVec.add_comm]
  case product => simp only [State.advance_regs, State.setReg_get, if_true, aluProduct_eq_mul, BitVec.mul_comm]
  case source =>
    have hne' : b.toNat ≠ a.toNat := fun h => hne (BitVec.eq_of_toNat_eq h)
    exact ⟨State.setReg_get_other hb hne' _, State.setReg_get_other hb hne' _⟩
  case associative =>
    simp only [aluSum_eq_add, aluProduct_eq_mul]
    exact ⟨BitVec.add_assoc x y z, BitVec.mul_assoc x y z⟩

theorem exec_jeq_of_set (h : flagE s.fl = true) (a : Byte) : exec (.jeq a) s = exec (.jmp a) s := by
  simp only [exec, execJeq, execJmp, h, if_true]

theorem exec_jeq_of_clear (h : flagE s.fl = false) (a : Byte) : exec (.jeq a) s = .next (s.advance 2) := by
  simp [exec, execJeq, h]

theorem exec_jne_of_clear (h : flagE s.fl = false) (a : Byte) : exec (.jne a) s = exec (.jmp a) s := by
  simp [exec, execJne, execJmp, h]

theorem exec_jne_of_set (h : flagE s.fl = true) (a : Byte) : exec (.jne a) s = .next (s.advance 2) := by
  simp [exec, execJne, h]

/-- Settles O24: a JEQ that is taken is JMP (O23), one that is not taken advances PC. -/
theorem jeqJumpsWhenEqual : Obligations.JeqJumpsWhenEqual := by
  intro s a
  obtain ⟨hjump, hfault⟩ := jmpJumpsToTheRegister s a
  refine ⟨fun ha he => ?_, fun he => exec_jeq_of_clear he a, fun ha he => ?_⟩
  · rw [exec_jeq_of_set he, hjump ha]
  · rw [exec_jeq_of_set he]
    exact hfault ha

/-- Settles O25: a JNE that is taken is JMP (O23), one that is not taken advances PC. -/
theorem jneJumpsWhenNotEqual : Obligations.JneJumpsWhenNotEqual := by
  intro s a
  obtain ⟨hjump, hfault⟩ := jmpJumpsToTheRegister s a
  refine ⟨fun ha he => ?_, fun he => exec_jne_of_set he a, fun ha he => ?_⟩
  · rw [exec_jne_of_clear he, hjump ha]
  · rw [exec_jne_of_clear he]
    exact hfault ha

end Sys2Proof.Machine

/-!
SUPPORT. The stack instructions by case (43_stack.md R150 to R155, 44_control.md R180, R183), and what the next fetch
reads of a pushed byte (20_memory.md R63).
-/

namespace Sys2Proof.Machine

variable {s : State} {a : Byte}

/-- A register read after the decrement of SP: R7 is the decremented SP (log entry 12). -/
theorem State.decSp_reg (ha : a.toNat < 8) :
    s.decSp.reg a = if a.toNat = 7 then s.sp - 1#8 else s.regs[a.toNat] := by
  rw [State.reg_of_lt ha, State.decSp, State.setReg_get]
  simp only [eq_comm]

/-- A CALL that was fetched pushes PC + 2 as it is. -/
theorem returnAddr_toNat (h : s.pc + 2 < 255) : (returnAddr s).toNat = s.pc + 2 := by
  rw [returnAddr, narrow, BitVec.toNat_ofNat, Nat.mod_eq_of_lt (by omega)]

theorem cellFault_pushAddr_of_ne (h : s.sp ≠ 0#8) : cellFault (pushAddr s) = none :=
  cellFault_eq_none.mpr (pushAddr_lt_memSize_iff.mpr h)

theorem cellFault_pushAddr_of_eq (h : s.sp = 0#8) : cellFault (pushAddr s) = some (.memOob 255) :=
  cellFault_pushAddr_eq_some.mpr ⟨h, rfl⟩

theorem cellFault_sp_of_ne (h : s.sp ≠ 255#8) : cellFault s.sp.toNat = none :=
  cellFault_eq_none.mpr (byte_toNat_lt_memSize_iff.mpr h)

theorem cellFault_sp_of_eq (h : s.sp = 255#8) : cellFault s.sp.toNat = some (.memOob 255) :=
  cellFault_toNat_eq_some.mpr ⟨h, rfl⟩

theorem exec_push_of_lt (ha : a.toNat < 8) (hsp : s.sp ≠ 0#8) : exec (.push a) s = .next (effect (.push a) s) :=
  exec_of_faultOf_none ((regFault_or_of_lt ha _).trans (cellFault_pushAddr_of_ne hsp))

theorem exec_call_of_lt (ha : a.toNat < 8) (hsp : s.sp ≠ 0#8) : exec (.call a) s = .next (effect (.call a) s) :=
  exec_of_faultOf_none (by rw [faultOf, cellFault_pushAddr_of_ne hsp, regFault_of_lt ha, Option.none_or])

theorem exec_pop_of_lt (ha : a.toNat < 8) (hsp : s.sp ≠ 255#8) : exec (.pop a) s = .next (effect (.pop a) s) :=
  exec_of_faultOf_none (by rw [faultOf, cellFault_sp_of_ne hsp, regFault_of_lt ha, Option.none_or])

/-- Settles O19: the handler's three outcomes, of which the register check comes first. -/
theorem pushStoresBelowTheStackPointer : Obligations.PushStoresBelowTheStackPointer := by
  refine fun s a => ⟨fun ha hsp => ?pushes, fun ha => ?register, fun ha hsp => ?memory⟩
  case pushes =>
    rw [exec_push_of_lt ha hsp, effect, State.decSp_reg ha, pushAddr_eq, State.decSp, State.setReg_of_lt (by decide)]
    rfl
  case register => exact takesFault_of_faultOf (regFault_or_of_ge ha _)
  case memory => exact takesFault_of_faultOf ((regFault_or_of_lt ha _).trans (cellFault_pushAddr_of_eq hsp))

/-- Settles O20: POP's increment reads the SP that its write of the popped byte leaves. -/
theorem popLoadsFromTheStackPointer : Obligations.PopLoadsFromTheStackPointer := by
  refine fun s a => ⟨fun ha hsp hne => ?pops, fun hsp heq => ?popsSp, fun hsp => ?memory, fun ha hsp => ?register⟩
  case pops =>
    rw [exec_pop_of_lt ha hsp, effect, State.incSp, State.sp_setReg_other hne, State.setReg_of_lt (by decide),
      State.setReg_of_lt ha]
    rfl
  case popsSp =>
    rw [exec_pop_of_lt (by omega) hsp, effect, heq, State.incSp, State.sp_setReg_seven, State.setReg_of_lt (by decide),
      State.setReg_of_lt (by decide)]
    simp [State.advance, State.setPc]
  case memory => exact takesFault_of_faultOf (by rw [faultOf, cellFault_sp_of_eq hsp, Option.some_or])
  case register =>
    exact takesFault_of_faultOf (by rw [faultOf, cellFault_sp_of_ne hsp, regFault_of_ge ha, Option.none_or])

/-- Settles O21: the handler's three outcomes, of which the push comes first; the register
is read after the decrement. -/
theorem callPushesTheReturnAddress : Obligations.CallPushesTheReturnAddress := by
  refine fun s a hpc => ⟨fun ha hsp => ⟨returnAddr s, returnAddr_toNat hpc, ?calls⟩, fun hsp => ?memory,
    fun ha hsp => ?register⟩
  case calls =>
    rw [exec_call_of_lt ha hsp, effect, State.decSp_reg ha, pushAddr_eq, State.decSp, State.setReg_of_lt (by decide)]
    rfl
  case memory => exact takesFault_of_faultOf (by rw [faultOf, cellFault_pushAddr_of_eq hsp, Option.some_or])
  case register =>
    exact takesFault_of_faultOf (by rw [faultOf, cellFault_pushAddr_of_ne hsp, regFault_of_ge ha, Option.none_or])

/-! What a push leaves on the stack. -/

theorem effect_push_sp (a : Byte) (s : State) : (effect (.push a) s).sp = s.sp - 1#8 := State.sp_decSp

theorem effect_call_sp (a : Byte) (s : State) : (effect (.call a) s).sp = s.sp - 1#8 := State.sp_decSp

theorem effect_push_mem_get (hwf : s.mem.wf) (a : Byte) :
    (effect (.push a) s).mem.get (pushAddr s) = s.decSp.reg a :=
  (Memory.get_set hwf _ _ _).trans (if_pos rfl)

theorem effect_call_mem_get (hwf : s.mem.wf) (a : Byte) :
    (effect (.call a) s).mem.get (pushAddr s) = returnAddr s :=
  (Memory.get_set hwf _ _ _).trans (if_pos rfl)

/-- The byte pushed is the one at the top of the stack. -/
theorem effect_push_top (hwf : s.mem.wf) (a : Byte) :
    (effect (.push a) s).mem.get (effect (.push a) s).sp.toNat = s.decSp.reg a := by
  rw [effect_push_sp, ← pushAddr_eq, effect_push_mem_get hwf]

theorem effect_call_top (hwf : s.mem.wf) (a : Byte) :
    (effect (.call a) s).mem.get (effect (.call a) s).sp.toNat = returnAddr s := by
  rw [effect_call_sp, ← pushAddr_eq, effect_call_mem_get hwf]

theorem effect_pop_sp (ha : a.toNat ≠ 7) (s : State) : (effect (.pop a) s).sp = s.sp + 1#8 := by
  rw [effect, State.sp_advance, State.sp_incSp, State.sp_setReg_other ha]

theorem effect_pop_reg (ha : a.toNat < 7) (s : State) :
    (effect (.pop a) s).regs[a.toNat] = s.mem.get s.sp.toNat := by
  refine (State.setReg_get_other (by omega) ha.ne _).trans ?_
  rw [State.setReg_get, if_pos rfl]

/-- Settles O42: POP reads the top that PUSH left, and neither is R7. -/
theorem pushThenPopRoundTrips : Obligations.PushThenPopRoundTrips := by
  intro s a b ha hb hwf hsp
  have hval : s.decSp.reg a = s.regs[a.toNat] := by
    rw [State.decSp_reg (by omega), if_neg ha.ne]
  have hsp' : (effect (.push a) s).sp ≠ 255#8 := by
    rw [effect_push_sp]
    exact mt byte_sub_one_eq_iff.mp hsp
  refine ⟨_, _, exec_push_of_lt (by omega) hsp, exec_pop_of_lt (by omega) hsp', ?value, ?sp, ?cell⟩
  case value => rw [effect_pop_reg hb, effect_push_top hwf, hval]
  case sp => rw [effect_pop_sp hb.ne, effect_push_sp, BitVec.sub_add_cancel]
  case cell =>
    have haddr : s.sp.toNat - 1 = pushAddr s := by
      rw [pushAddr_eq]
      bv_omega
    rw [effect_mem (by simp), haddr, effect_push_mem_get hwf, hval]

/-- Settles O43: RET pops the return address, the byte CALL left at the top. -/
theorem callThenRetReturns : Obligations.CallThenRetReturns := by
  intro s a ha hwf hpc hsp
  refine ⟨_, exec_call_of_lt ha hsp, fun u husp hutop => ?_⟩
  rw [effect_call_top hwf, ← husp] at hutop
  rw [effect_call_sp] at husp
  have hlt : u.sp.toNat < memSize := by
    rw [husp, ← pushAddr_eq]
    exact pushAddr_lt_memSize_iff.mpr hsp
  refine ⟨_, exec_ret_of_lt hlt, ?pc, ?sp⟩
  case pc => rw [State.setPc_pc, hutop, returnAddr_toNat hpc]
  case sp => rw [State.sp_setPc, State.sp_incSp, husp, BitVec.sub_add_cancel]

/-- Settles O44: the fetch reads the three bytes at PC, and the pushed byte is the one at `pushAddr s`. -/
theorem fetchSeesThePushedByte : Obligations.FetchSeesThePushedByte := by
  refine ⟨fun s a ha v hwf hsp hpc hv => ?push, fun s a ha target hwf hsp hpc htarget hwindow => ?call⟩
  case push =>
    have hbyte : (effect (.push a) s).mem.get (pushAddr s) = v := by
      rw [effect_push_mem_get hwf, State.decSp_reg ha, hv]
    refine ⟨effect (.push a) s, _, _, _, exec_push_of_lt ha hsp, fetch_eq_ok.mpr ⟨hpc, rfl⟩, ?_, ?_, ?_⟩
    all_goals
      intro haddr
      rw [← hbyte, haddr]
      rfl
  case call =>
    have hbyte := effect_call_mem_get hwf a
    have hnext : (effect (.call a) s).pc = target := by
      rw [htarget, ← State.decSp_reg ha]
      rfl
    refine ⟨effect (.call a) s, returnAddr s, _, _, _, returnAddr_toNat hpc, exec_call_of_lt ha hsp,
      fetch_eq_ok.mpr ⟨?_, rfl⟩, ?_, ?_, ?_⟩
    · rw [hnext]
      exact hwindow
    all_goals
      intro haddr
      rw [← hbyte, haddr, hnext]

end Sys2Proof.Machine
